-- ==== Sys2Proof/Word.lean ====
section
/-! DEFINITION. The word types of the block: bytes of BUF and of the key store, 32-bit registers and
words (00_scope.md R10), 64-bit accumulators and lanes (R7). All values are unsigned (R11). -/

namespace Sys2Proof

/-- One byte of BUF or of a key register. -/
abbrev Byte := BitVec 8

/-- A register value, a command word, or a `u32` (00_scope.md R10, R11). -/
abbrev Word := BitVec 32

/-- A `u64`: an accumulator of the universal hash or a lane of the combiner (00_scope.md R7, R11). -/
abbrev Lane := BitVec 64

end Sys2Proof
end

