-- ==== Sys2Proof/Config.lean ====
section
/-! DEFINITION. What an implementation fixes: the four keys and their sizes, the parameters of
00_scope.md R9, and the free values. The opaque constants have no body: nothing can evaluate them,
so whatever is proved holds for every choice of them. -/

namespace Sys2Proof

/-- The key registers, in the order of KSEL (10_state.md R31). -/
inductive KeySel where
  | ks
  | kt
  | km
  | kn
  deriving DecidableEq, Repr

/-- Key sizes in bytes (00_scope.md R7). -/
def KeySel.size : KeySel → Nat
  | .ks => 32
  | .kt => 32
  | .km => 32
  | .kn => 1072

/-- The type of the authenticator port: a 32-byte key and a message give 16 bytes (00_scope.md R13). -/
abbrev MacFn := Vector Byte 32 → List Byte → Vector Byte 16

/-- The type of the keystream port: a round count, a 32-byte key, an 8-byte nonce and a 64-bit counter
give one 64-byte block (00_scope.md R14). -/
abbrev KstreamFn := Nat → Vector Byte 32 → Vector Byte 8 → Lane → Vector Byte 64

/-- The open parameters that are numbers (00_scope.md R9). `bufLast` is the highest BUF address,
BUF_SIZE − 1: as a 32-bit value it ranges over exactly 1 ≤ BUF_SIZE ≤ 2^32. `engineBase` is
ENGINE_BASE. Both are fixed for the life of the block (10_state.md R18); log 3. -/
structure Params where
  bufLast : Word
  engineBase : Nat
  deriving DecidableEq, Repr

/-- BUF_SIZE (00_scope.md R9). -/
def Params.bufSize (p : Params) : Nat := p.bufLast.toNat + 1

namespace Config

/-- The parameter MAC (00_scope.md R9, R13); nothing else is assumed of it. Log 5. -/
opaque mac : MacFn

/-- The parameter KSTREAM (00_scope.md R9, R14); nothing else is assumed of it. Log 5. -/
opaque kstream : KstreamFn

/-- FREE VALUE. The byte that BUF holds at address `a` after reset number `era`, where nothing has
written it since: any value (70_reset_and_hazards.md R100, 93 U2). Log 6. -/
opaque bufPowerOn (era a : Nat) : Byte

/-- FREE VALUE. Draw number `n` of an unspecified byte of BUF at address `a`, after the host broke its
duty (70_reset_and_hazards.md R105, 93 U3). Log 9. -/
opaque breachByte (n a : Nat) : Byte

/-- FREE VALUE. Draw number `n` of the flag numbered `i` (0 DONE, 1 ERR, 2 OVR), after a STATUS write
while BUSY = 1 (70_reset_and_hazards.md R105). Log 10. -/
opaque breachFlag (n i : Nat) : Bool

end Config

end Sys2Proof
end

