-- ==== Sys2Proof/Syntax.lean ====
section
/-! DEFINITION. The commands of the block, one constructor per row of the opcode map
(30_encoding.md R49). Only LDKEY has an operand in its word, the key select; every other operand is
taken from the in-flight record (30_encoding.md R46, R47). -/

namespace Sys2Proof

/-- The eight commands (30_encoding.md R49, R50). -/
inductive Instr where
  | ldkey (k : KeySel)
  | hchacha
  | xstream
  | nhChunk
  | nhMsg
  | hashA
  | add128
  | sub128
  deriving DecidableEq, Repr

end Sys2Proof
end

