-- ==== Sys2Proof/Machine/State.lean ====
section
/-! DEFINITION. The state of the block, as plain data: everything 10_state.md R19 lists, and beside it
the model's own fields for what surrounds the block (INVENTORY.md, heading State). -/

namespace Sys2Proof.Machine

/-- The five operand registers (10_state.md R21). The in-flight record holds a second copy of them, the
snapshot taken at issue (R33). -/
structure Operands where
  src : Word
  srcLen : Word
  aux : Word
  auxLen : Word
  dst : Word
  deriving DecidableEq, Repr

/-- The error codes (60_exceptions.md R85). -/
inductive ErrCode where
  | none
  | illegalCmd
  | badRounds
  | badKeyLen
  | badLength
  | range
  | overlap
  | keyNotLoaded
  deriving DecidableEq, Repr

/-- The backend latch (10_state.md R32). -/
inductive Backend where
  | notSelected
  | portable
  | vector
  deriving DecidableEq, Repr

/-- The fields of STATUS that are held here. BUSY is the presence of the in-flight record, and KEYVALID
is held with the keys (10_state.md R27). -/
structure StatusBits where
  done : Bool
  err : Bool
  ovr : Bool
  errcode : ErrCode
  backend : Backend
  deriving DecidableEq, Repr

/-- One key register with its valid bit (10_state.md R31). -/
structure KeyReg (n : Nat) where
  bytes : Vector Byte n
  valid : Bool
  deriving DecidableEq, Repr

/-- The key store (10_state.md R31). -/
structure KeyStore where
  ks : KeyReg 32
  kt : KeyReg 32
  km : KeyReg 32
  kn : KeyReg 1072
  deriving DecidableEq, Repr

/-- The in-flight record: what is taken at issue (10_state.md R33, 70_reset_and_hazards.md R103). -/
structure Inflight where
  word : Word
  ops : Operands
  rounds : BitVec 5
  deriving DecidableEq, Repr

/-- The buffer memory BUF (20_memory.md R35). `cells` lists the written bytes by strictly rising address;
`era` numbers the reset since which they were written, and an unlisted byte is that reset's free
value (70_reset_and_hazards.md R100; log 6). -/
structure Buf where
  cells : List Host.Cell
  era : Nat
  deriving DecidableEq, Repr

/-- What the host did against 70_reset_and_hazards.md R105 since the command in flight was issued: the
BUF addresses it wrote, and whether it wrote STATUS. The model's own field; logs 9 and 10. -/
structure Breach where
  touched : List Nat
  status : Bool
  deriving DecidableEq, Repr

/-- What the host can do (10_state.md R20). A register access names a host address and a width in
bytes; a BUF access names the BUF address (20_memory.md R36; log 15). -/
inductive HostAction where
  | regWrite (addr width : Nat) (value : Word)
  | regRead (addr width : Nat)
  | bufWrite (a : Nat) (b : Byte)
  | bufRead (a : Nat)
  deriving DecidableEq, Repr

/-- One turn: the host acts, the engine runs the command in flight, the reset input is asserted
(70_reset_and_hazards.md R99), or the CAP_VEC input takes a level (R107). -/
inductive Turn where
  | host (act : HostAction)
  | engine
  | reset
  | capVec (level : Bool)
  deriving DecidableEq, Repr

/-- The machine. The first block of fields is the spec's state (10_state.md R19); the second is the
model's own. -/
structure State where
  rounds : BitVec 5
  ops : Operands
  status : StatusBits
  outLen : Word
  keys : KeyStore
  inflight : Option Inflight
  buf : Buf
  params : Params
  capVec : Bool
  script : List Turn
  rdata : Word
  breach : Breach
  draws : Nat
  deriving DecidableEq, Repr

/-- Why the machine stops with a fault. The block itself has none (93 U19): both are of the model. -/
inductive Fault where
  /-- A host BUF access at an address outside 0 to BUF_SIZE − 1 (20_memory.md R35), raised by
  `hostAct`. Safe: such an address does not exist, and no claim covers the access. Log 15. -/
  | bufAddressOutside
  /-- A command's meaning asked for with no command in flight, raised by `runCommand`. Safe: no rule
  gives it an effect, and `step` never asks (an idle engine does nothing). Log 13. -/
  | noCommandInFlight
  deriving DecidableEq, Repr

/-- Why the model gives an access no meaning. -/
inductive Refusal where
  /-- An instruction that has no meaning in this model. Safe. No arm raises it. -/
  | notModelled (mnemonic : String)
  /-- A host access to the register block that is not an aligned 32-bit access, raised by `hostAct`:
  the spec refuses it (20_memory.md R40, 93 U6). Safe. -/
  | registerAccess
  /-- A host register access outside the 256 bytes of the block, raised by `hostAct`: it acts on another
  device, which the spec does not give (10_state.md R22). Safe. Log 14. -/
  | addressOutsideBlock
  deriving DecidableEq, Repr

/-- All operand registers 0 (10_state.md R21, 70_reset_and_hazards.md R100). -/
def Operands.zero : Operands := { src := 0, srcLen := 0, aux := 0, auxLen := 0, dst := 0 }

/-- STATUS after reset (70_reset_and_hazards.md R100). -/
def StatusBits.reset : StatusBits :=
  { done := false, err := false, ovr := false, errcode := .none, backend := .notSelected }

/-- A key register after reset: not valid (70_reset_and_hazards.md R100). DESIGN CHOICE (log 7): its
bytes, which the spec leaves unspecified and unobservable, are 0. -/
def KeyReg.reset (n : Nat) : KeyReg n := { bytes := Vector.replicate n 0, valid := false }

/-- The key store after reset (70_reset_and_hazards.md R100). -/
def KeyStore.reset : KeyStore :=
  { ks := KeyReg.reset 32, kt := KeyReg.reset 32, km := KeyReg.reset 32, kn := KeyReg.reset 1072 }

/-- The host has kept 70_reset_and_hazards.md R105. -/
def Breach.none : Breach := { touched := [], status := false }

/-- The machine right after reset (70_reset_and_hazards.md R100). DESIGN CHOICE for the model's own
fields: BUF_SIZE = 4096 and ENGINE_BASE = 0 (log 3), CAP_VEC low (log 4), no turn waiting (log 1),
nothing read (log 8), first era of BUF (log 6), no breach and no draw yet (log 9). -/
def State.reset : State :=
  { rounds := 0
    ops := Operands.zero
    status := StatusBits.reset
    outLen := 0
    keys := KeyStore.reset
    inflight := Option.none
    buf := { cells := [], era := 0 }
    params := { bufLast := 4095, engineBase := 0 }
    capVec := false
    script := []
    rdata := 0
    breach := Breach.none
    draws := 0 }

end Sys2Proof.Machine
end

