-- ==== Sys2Proof/Machine/Ops.lean ====
section
/-! DEFINITION. The shared operations: byte order, BUF, operand ranges, the key store, issue, completion,
raising an error (the block's exception) and acknowledging it, the backend latch, reset, and the
frame every command runs in. -/

namespace Sys2Proof.Machine

/-- What a step or a meaning answers. -/
abbrev Result := Host.Outcome State Fault Refusal

/-! ### Byte order (00_scope.md R12, 20_memory.md R39) -/

/-- The value of a byte string, first byte least significant (20_memory.md R39). -/
def leNat : List Byte → Nat
  | [] => 0
  | b :: bs => b.toNat + 256 * leNat bs

/-- The `n` bytes of a value, least significant first (20_memory.md R39). -/
def bytesLE : Nat → Nat → List Byte
  | 0, _ => []
  | n + 1, v => BitVec.ofNat 8 v :: bytesLE n (v / 256)

/-- LE32 (00_scope.md R12). -/
def le32 (bs : List Byte) : Word := BitVec.ofNat 32 (leNat bs)

/-- LE64 (00_scope.md R12). -/
def le64 (bs : List Byte) : Lane := BitVec.ofNat 64 (leNat bs)

/-- LE128 (00_scope.md R12). -/
def le128 (bs : List Byte) : BitVec 128 := BitVec.ofNat 128 (leNat bs)

/-- bytesLE32 (00_scope.md R12). -/
def bytesLE32 (v : Word) : List Byte := bytesLE 4 v.toNat

/-- bytesLE64 (00_scope.md R12). -/
def bytesLE64 (v : Lane) : List Byte := bytesLE 8 v.toNat

/-- bytesLE128 (00_scope.md R12). -/
def bytesLE128 (v : BitVec 128) : List Byte := bytesLE 16 v.toNat

/-- `B[a .. a+n)` (00_scope.md R11). -/
def slice (bs : List Byte) (a n : Nat) : List Byte := (bs.drop a).take n

/-- A byte string of `n` zeros, `0^n` (00_scope.md R11). -/
def zeros (n : Nat) : List Byte := List.replicate n 0

/-- `ceil(a / b)` (00_scope.md R11). -/
def ceilDiv (a b : Nat) : Nat := (a + b - 1) / b

/-! ### BUF (20_memory.md R35) -/

/-- The byte listed for an address, if one is. -/
def cellsGet : List Host.Cell → Nat → Option Byte
  | [], _ => none
  | (c, x) :: rest, a => if c = a then some x else cellsGet rest a

/-- List a byte for an address, keeping the addresses strictly rising. -/
def cellsSet : List Host.Cell → Nat → Byte → List Host.Cell
  | [], a, b => [(a, b)]
  | (c, x) :: rest, a, b =>
    if a < c then (a, b) :: (c, x) :: rest
    else if a = c then (a, b) :: rest
    else (c, x) :: cellsSet rest a b

/-- One byte of BUF. A byte nothing has written since the last reset is any value
(70_reset_and_hazards.md R100): the free value of that reset at that address (log 6). -/
def Buf.read (m : Buf) (a : Nat) : Byte :=
  match cellsGet m.cells a with
  | some b => b
  | none => Config.bufPowerOn m.era a

/-- Write one byte. -/
def Buf.write (m : Buf) (a : Nat) (b : Byte) : Buf := { m with cells := cellsSet m.cells a b }

/-- MemWrite: the bytes of a string at rising addresses (00_scope.md R15). -/
def Buf.writeBytes (m : Buf) (a : Nat) : List Byte → Buf
  | [] => m
  | b :: bs => (m.write a b).writeBytes (a + 1) bs

/-- MemRead: `BUF[a .. a+n)` (00_scope.md R15). -/
def State.memRead (s : State) (a n : Nat) : List Byte :=
  (List.range n).map fun i => s.buf.read (a + i)

/-- The canonical form: addresses strictly rising. A byte that is listed has been written, and one that
is not listed has no value the model knows (log 6). -/
abbrev Buf.wf (m : Buf) : Prop := m.cells.Pairwise fun x y => x.1 < y.1

/-! ### Operand ranges (20_memory.md R37, R38) -/

/-- An operand range `(a, n)`: start address and length in bytes (20_memory.md R37). -/
structure Range where
  start : Nat
  len : Nat
  deriving DecidableEq, Repr

/-- Legal iff `a + n ≤ BUF_SIZE`, with the exact sum (20_memory.md R37). -/
def Range.legal (p : Params) (r : Range) : Bool := r.start + r.len ≤ p.bufSize

/-- Two ranges intersect (20_memory.md R38). -/
def Range.intersects (r q : Range) : Bool :=
  0 < r.len && 0 < q.len && r.start < q.start + q.len && q.start < r.start + r.len

/-- The address lies in the range. -/
def Range.holds (r : Range) (a : Nat) : Bool := r.start ≤ a && a < r.start + r.len

/-- The addresses of a range that exist in BUF, in rising order. -/
def Range.addressesIn (r : Range) (p : Params) : List Nat :=
  (List.range (min r.len (p.bufSize - r.start))).map fun i => r.start + i

/-! ### The key store (10_state.md R31) -/

/-- The register of a key. -/
def KeyStore.get (st : KeyStore) : (k : KeySel) → KeyReg k.size
  | .ks => st.ks
  | .kt => st.kt
  | .km => st.km
  | .kn => st.kn

/-- Replace a key register. -/
def KeyStore.put (st : KeyStore) : (k : KeySel) → KeyReg k.size → KeyStore
  | .ks, v => { st with ks := v }
  | .kt, v => { st with kt := v }
  | .km, v => { st with km := v }
  | .kn, v => { st with kn := v }

/-- KEYVALID of a key. -/
def KeyStore.valid (st : KeyStore) (k : KeySel) : Bool := (st.get k).valid

/-- Load a whole key register and set its valid bit (10_state.md R31). -/
def KeyStore.load (st : KeyStore) (k : KeySel) (bytes : Vector Byte k.size) : KeyStore :=
  st.put k { bytes := bytes, valid := true }

/-- MemRead as a vector, for the fixed-size key registers. -/
def State.memReadVec (s : State) (a n : Nat) : Vector Byte n :=
  Vector.mk (s.memRead a n).toArray (by simp [State.memRead])

/-! ### The host's access checks (10_state.md R22, 20_memory.md R40) -/

/-- The address lies in the 256 bytes of the register block (10_state.md R22). -/
def inBlock (p : Params) (addr : Nat) : Bool :=
  p.engineBase ≤ addr && addr < p.engineBase + 256

/-- The access is 32 bits wide and aligned within the block (20_memory.md R40; log 14). -/
def alignedWord (p : Params) (addr width : Nat) : Bool :=
  width == 4 && (addr - p.engineBase) % 4 == 0

/-! ### Issue, completion, errors -/

/-- STATUS.BUSY: a command is in flight (10_state.md R27, R34; log 12). -/
def State.busy (s : State) : Bool := s.inflight.isSome

/-- Issue a command word: take the snapshot; BUSY becomes 1 (70_reset_and_hazards.md R103). -/
def State.issue (s : State) (w : Word) : State :=
  { s with
    inflight := some { word := w, ops := s.ops, rounds := s.rounds }
    breach := Breach.none }

/-- `complete(outlen)` (60_exceptions.md R87). -/
def State.complete (s : State) (outlen : Nat) : State :=
  { s with
    inflight := none
    status := { s.status with done := true, errcode := .none }
    outLen := BitVec.ofNat 32 outlen }

/-- `raise Error(code)`: the block's one exception, which ends the command and changes nothing but
STATUS and OUT_LEN (60_exceptions.md R82, R88, R89). -/
def State.raise (s : State) (code : ErrCode) : State :=
  { s with
    inflight := none
    status := { s.status with done := true, err := true, errcode := code }
    outLen := 0 }

/-- Acknowledge: a host write of `v` to STATUS clears each of DONE, ERR and OVR written as 1. This is
what stands where another machine has a return from exception (60_exceptions.md R90, 10_state.md R27). -/
def State.acknowledge (s : State) (v : Word) : State :=
  { s with
    status :=
      { s.status with
        done := s.status.done && !v.getLsbD 1
        err := s.status.err && !v.getLsbD 2
        ovr := s.status.ovr && !v.getLsbD 3 } }

/-- The backend latch, taken once at the first universal-hash command that passes its checks
(10_state.md R32). -/
def State.latchBackend (s : State) : State :=
  { s with
    status :=
      { s.status with
        backend :=
          match s.status.backend with
          | .notSelected => if s.capVec then .vector else .portable
          | chosen => chosen } }

/-- Write the result of a command at the start of its output range and complete with its length: reads
have gone before (00_scope.md R15, 60_exceptions.md R87). -/
def State.finish (s : State) (out : Range) (bytes : List Byte) : State :=
  { s with buf := s.buf.writeBytes out.start bytes }.complete out.len

/-- The reset input (70_reset_and_hazards.md R99, R100): every register at its reset value, the command
in flight abandoned (R101), and BUF unspecified, which is a new era of free values (log 17). What
belongs to the platform and the host stays as it is. -/
def State.resetInput (s : State) : State :=
  { State.reset with
    buf := { cells := [], era := s.buf.era + 1 }
    params := s.params
    capVec := s.capVec
    script := s.script
    rdata := s.rdata
    draws := s.draws }

/-! ### The frame of a command (60_exceptions.md R84, R86) -/

/-- One check of R86: whether it fails, and the error it reports. -/
abbrev Check := Bool × ErrCode

/-- The first failing check is the one reported (60_exceptions.md R86). -/
def firstError : List Check → Option ErrCode
  | [] => none
  | (failed, e) :: rest => if failed then some e else firstError rest

/-- Run a command: take the in-flight record, run the checks, and then either raise the first error or
have the effect (60_exceptions.md R84). Without a command in flight there is nothing to run
(log 13). -/
def runCommand (checks : State → Inflight → List Check) (effect : State → Inflight → State)
    (s : State) : Result :=
  match s.inflight with
  | none => .fault .noCommandInFlight
  | some r =>
    match firstError (checks s r) with
    | some e => .next (s.raise e)
    | none => .next (effect s r)

/-- An illegal command word ends at once with ILLEGAL_CMD (30_encoding.md R48). -/
def execIllegal (s : State) : Result :=
  runCommand (fun _ _ => [(true, .illegalCmd)]) (fun s _ => s) s

end Sys2Proof.Machine
end

