-- ==== Sys2Proof/Machine/Operands.lean ====
section
/-! DEFINITION. The operands of every command and the checks on them. Each command's ranges and
lengths come from its rule (R53, R59, R63, R72, R73, R77, R78, R80); the checks are those of
60_exceptions.md R85, in the one order of R86. Addresses and lengths are the snapshot's 32-bit
values read as unsigned integers, never scaled or extended otherwise (30_encoding.md R47). -/

namespace Sys2Proof.Machine

/-- `(SRC, n)`. -/
def Operands.srcRange (o : Operands) (n : Nat) : Range := { start := o.src.toNat, len := n }

/-- `(AUX, n)`. -/
def Operands.auxRange (o : Operands) (n : Nat) : Range := { start := o.aux.toNat, len := n }

/-- `(DST, n)`. -/
def Operands.dstRange (o : Operands) (n : Nat) : Range := { start := o.dst.toNat, len := n }

/-- `c = ceil(SRC_LEN / 1024)`, the number of chunks (42_nh.md R68). -/
def chunkCount (len : Nat) : Nat := ceilDiv len 1024

/-- The output range of a command. LDKEY writes no byte of BUF (40_keyload.md R53). -/
def outRange (i : Instr) (o : Operands) : Range :=
  match i with
  | .ldkey _ => { start := 0, len := 0 }
  | .hchacha => o.dstRange 32
  | .xstream => o.dstRange o.srcLen.toNat
  | .nhChunk => o.dstRange 32
  | .nhMsg => o.dstRange (32 * chunkCount o.srcLen.toNat)
  | .hashA => o.dstRange 16
  | .add128 => o.dstRange 16
  | .sub128 => o.dstRange 16

/-- An input range of a command, and whether the output may equal it exactly (20_memory.md R38). -/
structure Input where
  range : Range
  mayAlias : Bool
  deriving DecidableEq, Repr

/-- The input ranges of a command. Only XSTREAM's message and the two operands of ADD128 and SUB128 may
be the output range itself (20_memory.md R38). -/
def inputs (i : Instr) (o : Operands) : List Input :=
  match i with
  | .ldkey _ => [{ range := o.srcRange o.srcLen.toNat, mayAlias := false }]
  | .hchacha => [{ range := o.auxRange 16, mayAlias := false }]
  | .xstream =>
    [ { range := o.srcRange o.srcLen.toNat, mayAlias := true },
      { range := o.auxRange o.auxLen.toNat, mayAlias := false } ]
  | .nhChunk => [{ range := o.srcRange o.srcLen.toNat, mayAlias := false }]
  | .nhMsg => [{ range := o.srcRange o.srcLen.toNat, mayAlias := false }]
  | .hashA =>
    [ { range := o.srcRange o.srcLen.toNat, mayAlias := false },
      { range := o.auxRange o.auxLen.toNat, mayAlias := false } ]
  | .add128 =>
    [ { range := o.srcRange 16, mayAlias := true }, { range := o.auxRange 16, mayAlias := true } ]
  | .sub128 =>
    [ { range := o.srcRange 16, mayAlias := true }, { range := o.auxRange 16, mayAlias := true } ]

/-- An output range clashes with an input: they intersect, and are not an exact alias the command
permits (20_memory.md R38). -/
def Input.clashes (inp : Input) (out : Range) : Bool :=
  out.intersects inp.range && !(inp.mayAlias && out == inp.range)

/-- The keys a command reads (60_exceptions.md R85, code 7). -/
def keysRead : Instr → List KeySel
  | .hchacha | .xstream => [.ks]
  | .nhChunk | .nhMsg => [.kn]
  | .hashA => [.kt, .km, .kn]
  | .ldkey _ | .add128 | .sub128 => []

/-- The legal round counts (00_scope.md R3, 10_state.md R26). -/
def legalRounds (r : BitVec 5) : Bool := r == 8 || r == 12 || r == 20

/-- BAD_ROUNDS (60_exceptions.md R85, code 2). -/
def badRounds (i : Instr) (rounds : BitVec 5) : Bool :=
  match i with
  | .hchacha | .xstream => !legalRounds rounds
  | .ldkey _ | .nhChunk | .nhMsg | .hashA | .add128 | .sub128 => false

/-- BAD_KEY_LEN (60_exceptions.md R85, code 3). -/
def badKeyLen (i : Instr) (o : Operands) : Bool :=
  match i with
  | .ldkey k => o.srcLen.toNat != k.size
  | .hchacha | .xstream | .nhChunk | .nhMsg | .hashA | .add128 | .sub128 => false

/-- BAD_LENGTH (60_exceptions.md R85, code 4). -/
def badLength (i : Instr) (o : Operands) : Bool :=
  match i with
  | .hchacha => o.auxLen.toNat != 16
  | .xstream => 23 < o.auxLen.toNat
  | .nhChunk => o.srcLen.toNat % 16 != 0 || o.srcLen.toNat < 16 || 1024 < o.srcLen.toNat
  | .add128 | .sub128 => o.srcLen.toNat != 16 || o.auxLen.toNat != 16
  | .ldkey _ | .nhMsg | .hashA => false

/-- RANGE (60_exceptions.md R85, code 5; 20_memory.md R37). -/
def badRange (i : Instr) (p : Params) (o : Operands) : Bool :=
  !((outRange i o).legal p && (inputs i o).all fun inp => inp.range.legal p)

/-- OVERLAP (60_exceptions.md R85, code 6; 20_memory.md R38). -/
def badOverlap (i : Instr) (o : Operands) : Bool :=
  (inputs i o).any fun inp => inp.clashes (outRange i o)

/-- KEY_NOT_LOADED (60_exceptions.md R85, code 7). -/
def keyMissing (i : Instr) (st : KeyStore) : Bool := (keysRead i).any fun k => !st.valid k

/-- The checks of a legal command word, in the order of 60_exceptions.md R86. -/
def commandChecks (i : Instr) (s : State) (r : Inflight) : List Check :=
  [ (badRounds i r.rounds, .badRounds),
    (badKeyLen i r.ops, .badKeyLen),
    (badLength i r.ops, .badLength),
    (badRange i s.params r.ops, .range),
    (badOverlap i r.ops, .overlap),
    (keyMissing i s.keys, .keyNotLoaded) ]

end Sys2Proof.Machine
end

