-- ==== Sys2Proof/Machine/Nh.lean ====
section
/-! DEFINITION. The universal hash family: NH_CHUNK and NH_MSG (42_nh.md), with both backends. -/

namespace Sys2Proof.Machine

/-! ### The function on words (42_nh.md R66, R67, R70, R71) -/

/-- The little-endian 32-bit words of a byte string (42_nh.md R66). -/
def wordsLE : List Byte → List Word
  | a :: b :: c :: d :: rest => le32 [a, b, c, d] :: wordsLE rest
  | _ => []

/-- `(x +32 y) ×64 (z +32 w)`: wrapping 32-bit sums, exact 64-bit product (42_nh.md R67). -/
def nhProduct (x y z w : Word) : Lane := (x + y).setWidth 64 * (z + w).setWidth 64

/-- What the stride at word `j` adds to accumulator `i` (42_nh.md R66). -/
def nhStride (k m : List Word) (i j : Nat) : Lane :=
  nhProduct (m.getD j 0) (k.getD (j + 4 * i) 0) (m.getD (j + 2) 0) (k.getD (j + 4 * i + 2) 0)
    + nhProduct (m.getD (j + 1) 0) (k.getD (j + 4 * i + 1) 0) (m.getD (j + 3) 0)
      (k.getD (j + 4 * i + 3) 0)

/-- PORTABLE: accumulator `h_i`, the sum over the strides 0, 4, …, n − 4 (42_nh.md R66). -/
def nhAccumulator (k m : List Word) (i : Nat) : Lane :=
  (List.range (m.length / 4)).foldl (fun h q => h + nhStride k m i (4 * q)) 0

/-- The four 64-bit lanes of the VECTOR path (42_nh.md R71). -/
structure Lanes where
  l0 : Lane
  l1 : Lane
  l2 : Lane
  l3 : Lane
  deriving DecidableEq, Repr

/-- The two products of one stride for one lane: the stride's message words against the lane's own four
key words (42_nh.md R71). -/
def laneTerm (m0 m1 m2 m3 : Word) (k : List Word) : Lane :=
  nhProduct m0 (k.getD 0 0) m2 (k.getD 2 0) + nhProduct m1 (k.getD 1 0) m3 (k.getD 3 0)

/-- VECTOR: every stride feeds the same four message words to all four lanes, each with its own quarter of
the 16-word key window, which then advances by 4 words (42_nh.md R71). -/
def vectorLanes : List Word → List Word → Lanes → Lanes
  | k, m0 :: m1 :: m2 :: m3 :: rest, h =>
    vectorLanes (k.drop 4) rest
      { l0 := h.l0 + laneTerm m0 m1 m2 m3 k
        l1 := h.l1 + laneTerm m0 m1 m2 m3 (k.drop 4)
        l2 := h.l2 + laneTerm m0 m1 m2 m3 (k.drop 8)
        l3 := h.l3 + laneTerm m0 m1 m2 m3 (k.drop 12) }
  | _, _, h => h

/-- The digest on the PORTABLE path (42_nh.md R66). -/
def nhPortable (kn : Vector Byte 1072) (chunk : List Byte) : List Byte :=
  let k := wordsLE kn.toList
  let m := wordsLE chunk
  bytesLE64 (nhAccumulator k m 0) ++ bytesLE64 (nhAccumulator k m 1)
    ++ bytesLE64 (nhAccumulator k m 2) ++ bytesLE64 (nhAccumulator k m 3)

/-- The digest on the VECTOR path: lane `i` goes to bytes `[8i, 8i+8)` (42_nh.md R71). -/
def nhVector (kn : Vector Byte 1072) (chunk : List Byte) : List Byte :=
  let h := vectorLanes (wordsLE kn.toList) (wordsLE chunk) { l0 := 0, l1 := 0, l2 := 0, l3 := 0 }
  bytesLE64 h.l0 ++ bytesLE64 h.l1 ++ bytesLE64 h.l2 ++ bytesLE64 h.l3

/-- NH on the path the backend latch names (10_state.md R32, 42_nh.md R70; log 18). -/
def nh (b : Backend) (kn : Vector Byte 1072) (chunk : List Byte) : List Byte :=
  match b with
  | .vector => nhVector kn chunk
  | .portable | .notSelected => nhPortable kn chunk

/-! ### Chunking (42_nh.md R68) -/

/-- Zero bytes to the next multiple of 16, never to 1024 (42_nh.md R68, 90_conflicts.md C1). -/
def padChunk (raw : List Byte) : List Byte := raw ++ zeros ((16 - raw.length % 16) % 16)

/-- `chunk_q` of a message (42_nh.md R68). -/
def chunkAt (l : List Byte) (q : Nat) : List Byte := padChunk (slice l (1024 * q) 1024)

/-- `NHMSG(KN, L)`: the digests of all chunks, each under the same key (42_nh.md R68). -/
def nhMessage (b : Backend) (kn : Vector Byte 1072) (l : List Byte) : List Byte :=
  (List.range (chunkCount l.length)).flatMap fun q => nh b kn (chunkAt l q)

/-! ### The commands -/

/-- The effect of NH_CHUNK: latch the backend, then hash the chunk (42_nh.md R72). -/
def nhChunkEffect (s : State) (r : Inflight) : State :=
  let s := s.latchBackend
  s.finish (outRange .nhChunk r.ops)
    (nh s.status.backend s.keys.kn.bytes (s.memRead r.ops.src.toNat r.ops.srcLen.toNat))

/-- NH_CHUNK (42_nh.md R72). -/
def execNhChunk (s : State) : Result :=
  runCommand (commandChecks .nhChunk) nhChunkEffect s

/-- The effect of NH_MSG: latch the backend, then hash the message (42_nh.md R73). -/
def nhMsgEffect (s : State) (r : Inflight) : State :=
  let s := s.latchBackend
  s.finish (outRange .nhMsg r.ops)
    (nhMessage s.status.backend s.keys.kn.bytes (s.memRead r.ops.src.toNat r.ops.srcLen.toNat))

/-- NH_MSG (42_nh.md R73). -/
def execNhMsg (s : State) : Result :=
  runCommand (commandChecks .nhMsg) nhMsgEffect s

end Sys2Proof.Machine
end

