-- ==== Sys2Proof/Machine/Combiner.lean ====
section
/-! DEFINITION. The variant-A hash and 128-bit combiner family: ADD128, SUB128 and HASH_A
(43_combiner.md). -/

namespace Sys2Proof.Machine

/-- `add128(A, B)` in two 64-bit lanes, lane 0 carrying into lane 1 (43_combiner.md R74). -/
def add128 (a b : List Byte) : List Byte :=
  let a0 := le64 (slice a 0 8)
  let a1 := le64 (slice a 8 8)
  let b0 := le64 (slice b 0 8)
  let b1 := le64 (slice b 8 8)
  let s0 := a0 + b0
  let carry : Lane := if s0.toNat < a0.toNat then 1 else 0
  bytesLE64 s0 ++ bytesLE64 (a1 + b1 + carry)

/-- `sub128(A, B)` in two 64-bit lanes, lane 0 borrowing from lane 1 (43_combiner.md R75). -/
def sub128 (a b : List Byte) : List Byte :=
  let a0 := le64 (slice a 0 8)
  let a1 := le64 (slice a 8 8)
  let b0 := le64 (slice b 0 8)
  let b1 := le64 (slice b 8 8)
  let borrow : Lane := if a0.toNat < b0.toNat then 1 else 0
  bytesLE64 (a0 - b0) ++ bytesLE64 (a1 - b1 - borrow)

/-- The tweak header: the message's length in bits as 8 bytes, then 8 zero bytes (43_combiner.md R79). -/
def tweakHeader (l : List Byte) : List Byte := bytesLE 8 (8 * l.length) ++ zeros 8

/-- `HashA(T, L)` over an authenticator port and a backend (43_combiner.md R79). -/
def hashA (mac : MacFn) (b : Backend) (st : KeyStore) (t l : List Byte) : List Byte :=
  add128 (mac st.kt.bytes (tweakHeader l ++ t)).toList
    (mac st.km.bytes (nhMessage b st.kn.bytes l)).toList

/-- The effect of HASH_A over an authenticator port: latch the backend, then hash (43_combiner.md R80). -/
def hashAEffect (mac : MacFn) (s : State) (r : Inflight) : State :=
  let s := s.latchBackend
  s.finish (outRange .hashA r.ops)
    (hashA mac s.status.backend s.keys (s.memRead r.ops.aux.toNat r.ops.auxLen.toNat)
      (s.memRead r.ops.src.toNat r.ops.srcLen.toNat))

/-- HASH_A over an authenticator port (43_combiner.md R80). -/
def hashAWith (mac : MacFn) (s : State) : Result :=
  runCommand (commandChecks .hashA) (hashAEffect mac) s

/-- HASH_A with the block's own MAC (43_combiner.md R80, 00_scope.md R13). -/
def execHashA (s : State) : Result := hashAWith Config.mac s

/-- The effect of ADD128 (43_combiner.md R77). -/
def add128Effect (s : State) (r : Inflight) : State :=
  s.finish (outRange .add128 r.ops)
    (add128 (s.memRead r.ops.src.toNat 16) (s.memRead r.ops.aux.toNat 16))

/-- ADD128 (43_combiner.md R77). -/
def execAdd128 (s : State) : Result :=
  runCommand (commandChecks .add128) add128Effect s

/-- The effect of SUB128: A at SRC minus B at AUX (43_combiner.md R78). -/
def sub128Effect (s : State) (r : Inflight) : State :=
  s.finish (outRange .sub128 r.ops)
    (sub128 (s.memRead r.ops.src.toNat 16) (s.memRead r.ops.aux.toNat 16))

/-- SUB128 (43_combiner.md R78). -/
def execSub128 (s : State) : Result :=
  runCommand (commandChecks .sub128) sub128Effect s

end Sys2Proof.Machine
end

