-- ==== Sys2Proof/Machine/Keyload.lean ====
section
/-! DEFINITION. The key store family: LDKEY (40_keyload.md). -/

namespace Sys2Proof.Machine

/-- The effect of LDKEY: the key register takes the source bytes, its valid bit is set, and the command
completes with no byte of BUF written (40_keyload.md R53). -/
def loadKey (k : KeySel) (s : State) (r : Inflight) : State :=
  { s with keys := s.keys.load k (s.memReadVec r.ops.src.toNat k.size) }.complete 0

/-- LDKEY (40_keyload.md R53). -/
def execLdkey (k : KeySel) (s : State) : Result :=
  runCommand (commandChecks (.ldkey k)) (loadKey k) s

end Sys2Proof.Machine
end

