-- ==== Sys2Proof/Machine/Stream.lean ====
section
/-! DEFINITION. The nonce-extension and stream family: HCHACHA and XSTREAM (41_stream.md). -/

namespace Sys2Proof.Machine

/-! ### The nonce-extension function (41_stream.md R55–R58) -/

/-- The sixteen-word state (41_stream.md R55). -/
abbrev ChaState := Vector Word 16

/-- Word `i` of a byte string, little-endian (41_stream.md R55). -/
def wordAt (bs : List Byte) (i : Nat) : Word := le32 (slice bs (4 * i) 4)

/-- The four constants, "expand 32-byte k" (41_stream.md R55). -/
def chaConstants : List Word := [0x61707865, 0x3320646e, 0x79622d32, 0x6b206574]

/-- A state of the four constants, eight key words and four more words (41_stream.md R55, R62). -/
def chaInit (key : Vector Byte 32) (tail : Nat → Word) : ChaState :=
  Vector.ofFn fun t : Fin 16 =>
    if t.val < 4 then chaConstants.getD t.val 0
    else if t.val < 12 then wordAt key.toList (t.val - 4)
    else tail (t.val - 12)

/-- The initial state of `HChaCha_r` (41_stream.md R55). -/
def hchachaInit (key : Vector Byte 32) (n : Vector Byte 16) : ChaState :=
  chaInit key fun i => wordAt n.toList i

/-- One line of the quarter-round: `s[x] += s[y]; s[z] <- rotl32(s[z] ⊕ s[x], n)` (41_stream.md R56). -/
def chaHalfStep (x y z : Fin 16) (n : Nat) (s : ChaState) : ChaState :=
  let sum := s[x] + s[y]
  (s.set x sum).set z ((s[z] ^^^ sum).rotateLeft n)

/-- The quarter-round `QR(a, b, c, d)` (41_stream.md R56). -/
def quarterRound (a b c d : Fin 16) (s : ChaState) : ChaState :=
  chaHalfStep c d b 7 (chaHalfStep a b d 8 (chaHalfStep c d b 12 (chaHalfStep a b d 16 s)))

/-- The column round (41_stream.md R57). -/
def columnRound (s : ChaState) : ChaState :=
  quarterRound 3 7 11 15 (quarterRound 2 6 10 14 (quarterRound 1 5 9 13 (quarterRound 0 4 8 12 s)))

/-- The diagonal round (41_stream.md R57). -/
def diagonalRound (s : ChaState) : ChaState :=
  quarterRound 3 4 9 14 (quarterRound 2 7 8 13 (quarterRound 1 6 11 12 (quarterRound 0 5 10 15 s)))

/-- `n` double-rounds (41_stream.md R57). -/
def doubleRounds : Nat → ChaState → ChaState
  | 0, s => s
  | n + 1, s => doubleRounds n (diagonalRound (columnRound s))

/-- `HChaCha_r(key, n)`: `r/2` double-rounds, then words 0 to 3 and 12 to 15 of the final state with no
addition of the initial state (41_stream.md R57, R58). -/
def hchacha (r : Nat) (key : Vector Byte 32) (n : Vector Byte 16) : Vector Byte 32 :=
  let s := doubleRounds (r / 2) (hchachaInit key n)
  let out : List Byte :=
    [s[0], s[1], s[2], s[3], s[12], s[13], s[14], s[15]].flatMap fun w => bytesLE32 w
  Vector.ofFn fun i : Fin 32 => out.getD i.val 0

/-! ### The nonce-extended stream (41_stream.md R60–R62) -/

/-- The full nonce of a logical nonce: its bytes, then 0x01, then zeros, 24 bytes in all
(41_stream.md R60, 00_scope.md R8). -/
def fullNonce (nu : List Byte) : Vector Byte 24 :=
  Vector.ofFn fun i : Fin 24 =>
    if i.val < nu.length then nu.getD i.val 0 else if i.val = nu.length then 1 else 0

/-- The sub-nonce, bytes 0 to 15 of the full nonce (41_stream.md R60). -/
def subNonce (nf : Vector Byte 24) : Vector Byte 16 :=
  Vector.ofFn fun i : Fin 16 => nf.toList.getD i.val 0

/-- The inner nonce, bytes 16 to 23 of the full nonce (41_stream.md R60). -/
def innerNonce (nf : Vector Byte 24) : Vector Byte 8 :=
  Vector.ofFn fun i : Fin 8 => nf.toList.getD (16 + i.val) 0

/-- `nb` keystream blocks, with counters 0 to `nb − 1` (41_stream.md R61). -/
def keystream (ksf : KstreamFn) (r : Nat) (key : Vector Byte 32) (nonce : Vector Byte 8) (nb : Nat) :
    List Byte :=
  (List.range nb).flatMap fun j => (ksf r key nonce (BitVec.ofNat 64 j)).toList

/-- `XStream_r(K, P, ν)` over a keystream port (41_stream.md R61). -/
def xstream (ksf : KstreamFn) (r : Nat) (key : Vector Byte 32) (p nu : List Byte) : List Byte :=
  let nf := fullNonce nu
  let ks := keystream ksf r (hchacha r key (subNonce nf)) (innerNonce nf) (ceilDiv p.length 64)
  List.zipWith (fun x y => x ^^^ y) p ks

/-- The reference instance of KSTREAM, the ChaCha block function with `r` rounds. No meaning uses it:
the block's KSTREAM is a parameter (41_stream.md R62). -/
def chachaBlock : KstreamFn := fun r key nonce counter =>
  let init := chaInit key fun i =>
    match i with
    | 0 => BitVec.ofNat 32 counter.toNat
    | 1 => BitVec.ofNat 32 (counter.toNat / 2 ^ 32)
    | 2 => wordAt nonce.toList 0
    | _ => wordAt nonce.toList 1
  let s := doubleRounds (r / 2) init
  let out : List Byte := (List.zipWith (fun x y => x + y) s.toList init.toList).flatMap fun w => bytesLE32 w
  Vector.ofFn fun i : Fin 64 => out.getD i.val 0

/-! ### The commands -/

/-- The effect of HCHACHA (41_stream.md R59). -/
def hchachaEffect (s : State) (r : Inflight) : State :=
  s.finish (outRange .hchacha r.ops)
    (hchacha r.rounds.toNat s.keys.ks.bytes (s.memReadVec r.ops.aux.toNat 16)).toList

/-- HCHACHA (41_stream.md R59). -/
def execHchacha (s : State) : Result :=
  runCommand (commandChecks .hchacha) hchachaEffect s

/-- The effect of XSTREAM over a keystream port (41_stream.md R63). -/
def xstreamEffect (ksf : KstreamFn) (s : State) (r : Inflight) : State :=
  s.finish (outRange .xstream r.ops)
    (xstream ksf r.rounds.toNat s.keys.ks.bytes (s.memRead r.ops.src.toNat r.ops.srcLen.toNat)
      (s.memRead r.ops.aux.toNat r.ops.auxLen.toNat))

/-- XSTREAM over a keystream port (41_stream.md R63). -/
def xstreamWith (ksf : KstreamFn) (s : State) : Result :=
  runCommand (commandChecks .xstream) (xstreamEffect ksf) s

/-- XSTREAM with the block's own KSTREAM (41_stream.md R63, 00_scope.md R14). -/
def execXstream (s : State) : Result := xstreamWith Config.kstream s

end Sys2Proof.Machine
end

