-- ==== Sys2Proof/Machine/Dispatch.lean ====
section
/-! DEFINITION. One arm per constructor of Instr: the meaning of every command of the opcode map
(30_encoding.md R49). -/

namespace Sys2Proof.Machine

def exec (i : Instr) (s : State) : Host.Outcome State Fault Refusal :=
  match i with
  | .ldkey k => Sys2Proof.Machine.execLdkey k s
  | .hchacha => Sys2Proof.Machine.execHchacha s
  | .xstream => Sys2Proof.Machine.execXstream s
  | .nhChunk => Sys2Proof.Machine.execNhChunk s
  | .nhMsg => Sys2Proof.Machine.execNhMsg s
  | .hashA => Sys2Proof.Machine.execHashA s
  | .add128 => Sys2Proof.Machine.execAdd128 s
  | .sub128 => Sys2Proof.Machine.execSub128 s

end Sys2Proof.Machine
end

