-- ==== Sys2Proof/WellFormed.lean ====
section
/-! DEFINITION. What the syntax may hold. A command has no field that could be out of range: its only
operand is a key of the key store (30_encoding.md R47). What the host writes as an action can be
ill-formed, and is checked here: a register access must lie in the block, be aligned and be 32 bits
wide (10_state.md R22, 20_memory.md R40), and a BUF access must lie in BUF (20_memory.md R35). -/

namespace Sys2Proof

open Machine

/-- Every instruction is well formed: KSEL selects one of four keys and there is no other operand
(30_encoding.md R47). -/
def Instr.wellFormed : Instr → Bool
  | .ldkey _ => true
  | .hchacha => true
  | .xstream => true
  | .nhChunk => true
  | .nhMsg => true
  | .hashA => true
  | .add128 => true
  | .sub128 => true

/-- The checks on what the host does. -/
def Machine.HostAction.wellFormed (p : Params) : HostAction → Bool
  | .regWrite addr width _ => inBlock p addr && alignedWord p addr width
  | .regRead addr width => inBlock p addr && alignedWord p addr width
  | .bufWrite a _ => a < p.bufSize
  | .bufRead a => a < p.bufSize

/-- A turn is well formed when the host action in it is. -/
def Machine.Turn.wellFormed (p : Params) : Turn → Bool
  | .host act => act.wellFormed p
  | .engine => true
  | .reset => true
  | .capVec _ => true

end Sys2Proof
end

