-- ==== Sys2Proof/Decode.lean ====
section
/-! DEFINITION. Decoding and encoding of command words. `decode` reads the three fields of
30_encoding.md R46; `encode` assembles them; `opcodeMap` is the match and mask table of R49, written
apart from both. A command word is written to CMD as one 32-bit value, so there is no byte
sequence to decode. -/

namespace Sys2Proof

/-- OP, bits [7:0] (30_encoding.md R46). -/
def opField (w : Word) : BitVec 8 := w.extractLsb' 0 8

/-- KSEL, bits [9:8] (30_encoding.md R46). -/
def kselField (w : Word) : BitVec 2 := w.extractLsb' 8 2

/-- RSVD, bits [31:10] (30_encoding.md R46). -/
def rsvdField (w : Word) : BitVec 22 := w.extractLsb' 10 22

/-- Why a word is no command (30_encoding.md R50). -/
inductive DecodeError where
  | reservedBits
  | reservedOp
  | keySelectOutsideLdkey
  deriving DecidableEq, Repr

/-- What decoding a word gives: a command, or the reason it is illegal. -/
inductive Decoded where
  | command (i : Instr)
  | illegal (why : DecodeError)
  deriving DecidableEq, Repr

/-- KSEL to a key (10_state.md R31). -/
def keyOfKsel (b : BitVec 2) : KeySel :=
  match b.toNat with
  | 0 => .ks
  | 1 => .kt
  | 2 => .km
  | _ => .kn

/-- A key to its KSEL (10_state.md R31). -/
def kselOf : KeySel → BitVec 2
  | .ks => 0
  | .kt => 1
  | .km => 2
  | .kn => 3

/-- The commands whose KSEL must be 0, by OP (30_encoding.md R49). -/
def plainCommand (op : BitVec 8) : Option Instr :=
  match op.toNat with
  | 0x10 => some .hchacha
  | 0x11 => some .xstream
  | 0x20 => some .nhChunk
  | 0x21 => some .nhMsg
  | 0x30 => some .hashA
  | 0x31 => some .add128
  | 0x32 => some .sub128
  | _ => none

/-- Decode a command word: total, and an illegal word is rejected by name (30_encoding.md R46, R48, R50). -/
def decode (w : Word) : Decoded :=
  if rsvdField w ≠ 0 then .illegal .reservedBits
  else if opField w = 0x01 then .command (.ldkey (keyOfKsel (kselField w)))
  else
    match plainCommand (opField w) with
    | none => .illegal .reservedOp
    | some i => if kselField w = 0 then .command i else .illegal .keySelectOutsideLdkey

/-- The OP of a command (30_encoding.md R49). -/
def opOf : Instr → BitVec 8
  | .ldkey _ => 0x01
  | .hchacha => 0x10
  | .xstream => 0x11
  | .nhChunk => 0x20
  | .nhMsg => 0x21
  | .hashA => 0x30
  | .add128 => 0x31
  | .sub128 => 0x32

/-- The KSEL of a command: LDKEY's key, 0 for every other (30_encoding.md R46). -/
def kselOfInstr : Instr → BitVec 2
  | .ldkey k => kselOf k
  | .hchacha | .xstream | .nhChunk | .nhMsg | .hashA | .add128 | .sub128 => 0

/-- The command word of an instruction: RSVD = 0, KSEL, OP (30_encoding.md R46). -/
def encode (i : Instr) : Word := (0 : BitVec 22) ++ kselOfInstr i ++ opOf i

/-- One row of the opcode map (30_encoding.md R49). -/
structure OpcodeRow where
  mnemonic : String
  mtch : Word
  mask : Word
  deriving DecidableEq, Repr

/-- The opcode map of 30_encoding.md R49, row by row. -/
def opcodeMap : List OpcodeRow :=
  [ { mnemonic := "LDKEY", mtch := 0x00000001, mask := 0xFFFFFCFF },
    { mnemonic := "HCHACHA", mtch := 0x00000010, mask := 0xFFFFFFFF },
    { mnemonic := "XSTREAM", mtch := 0x00000011, mask := 0xFFFFFFFF },
    { mnemonic := "NH_CHUNK", mtch := 0x00000020, mask := 0xFFFFFFFF },
    { mnemonic := "NH_MSG", mtch := 0x00000021, mask := 0xFFFFFFFF },
    { mnemonic := "HASH_A", mtch := 0x00000030, mask := 0xFFFFFFFF },
    { mnemonic := "ADD128", mtch := 0x00000031, mask := 0xFFFFFFFF },
    { mnemonic := "SUB128", mtch := 0x00000032, mask := 0xFFFFFFFF } ]

/-- A word matches a row: `(w & mask) = match` (30_encoding.md R48). -/
def OpcodeRow.matchesWord (row : OpcodeRow) (w : Word) : Bool := w &&& row.mask == row.mtch

/-- A word is legal iff it matches one row of the opcode map (30_encoding.md R48). -/
def legalWord (w : Word) : Bool := opcodeMap.any fun row => row.matchesWord w

/-- The decoder's answer for an instruction of the opcode table given as a number: bit 0 is the least
significant bit of the one 32-bit word, and every bit from `nbits` on is 0. -/
def decodeTableWord (nbits w : Nat) : Option Instr :=
  match decode (BitVec.ofNat 32 (w % 2 ^ nbits)) with
  | .command i => some i
  | .illegal _ => none

end Sys2Proof
end

