-- ==== Sys2Proof/Machine/Flags.lean ====
section
/-! DEFINITION. The registers as words: STATUS and its fields (10_state.md R27), the numeric codes, and
the flags of R34. There is no carry, overflow or condition flag. -/

namespace Sys2Proof.Machine

/-- ERRCODE, bits [11:8] (60_exceptions.md R85). -/
def ErrCode.code : ErrCode → BitVec 4
  | .none => 0
  | .illegalCmd => 1
  | .badRounds => 2
  | .badKeyLen => 3
  | .badLength => 4
  | .range => 5
  | .overlap => 6
  | .keyNotLoaded => 7

/-- BACKEND, bits [17:16] (10_state.md R27). -/
def Backend.code : Backend → BitVec 2
  | .notSelected => 0
  | .portable => 1
  | .vector => 2

/-- KEYVALID, bits [23:20]: KS, KT, KM, KN from bit 20 up (10_state.md R31). -/
def KeyStore.validBits (st : KeyStore) : BitVec 4 :=
  BitVec.ofBool st.kn.valid ++ BitVec.ofBool st.km.valid ++ BitVec.ofBool st.kt.valid
    ++ BitVec.ofBool st.ks.valid

/-- The STATUS word, from bit 31 down to bit 0 (10_state.md R27). -/
def State.statusWord (s : State) : Word :=
  (0 : BitVec 8) ++ s.keys.validBits ++ (0 : BitVec 2) ++ s.status.backend.code ++ (0 : BitVec 4)
    ++ s.status.errcode.code ++ (0 : BitVec 4) ++ BitVec.ofBool s.status.ovr
    ++ BitVec.ofBool s.status.err ++ BitVec.ofBool s.status.done ++ BitVec.ofBool s.busy

/-- The CFG word: ROUNDS in bits [4:0], the rest 0 (10_state.md R26). -/
def State.cfgWord (s : State) : Word := (0 : BitVec 27) ++ s.rounds

/-- The CAPS word: the live level of CAP_VEC in bit 0 (10_state.md R30). -/
def State.capsWord (s : State) : Word := (0 : BitVec 31) ++ BitVec.ofBool s.capVec

/-- The ID word, a constant (10_state.md R25). -/
def idWord : Word := 0x55484541

/-- A CMD write while BUSY = 1 sets OVR and nothing else (70_reset_and_hazards.md R104). -/
def State.setOvr (s : State) : State := { s with status := { s.status with ovr := true } }

/-- DONE, ERR and OVR as free values, when the host wrote STATUS while BUSY = 1
(70_reset_and_hazards.md R105; log 10). -/
def StatusBits.freed (b : StatusBits) (n : Nat) : StatusBits :=
  { b with
    done := Config.breachFlag n 0
    err := Config.breachFlag n 1
    ovr := Config.breachFlag n 2 }

end Sys2Proof.Machine
end

