-- ==== Sys2Proof/Machine/HostPort.lean ====
section
/-! DEFINITION. The host's side of the block: the register map (10_state.md R22), the host port to BUF
(20_memory.md R36), and what becomes of a host that breaks its duty while BUSY = 1
(70_reset_and_hazards.md R105). -/

namespace Sys2Proof.Machine

/-- Read the register at an offset of the block. CMD and the reserved offsets read 0; no read has a side
effect (10_state.md R22, R23, 20_memory.md R42). -/
def State.readRegister (s : State) (offset : Nat) : Word :=
  match offset with
  | 0x00 => idWord
  | 0x04 => s.cfgWord
  | 0x08 => s.statusWord
  | 0x0C => 0
  | 0x10 => s.ops.src
  | 0x14 => s.ops.srcLen
  | 0x18 => s.ops.aux
  | 0x1C => s.ops.auxLen
  | 0x20 => s.ops.dst
  | 0x24 => s.capsWord
  | 0x28 => s.outLen
  | _ => 0

/-- A host write to CMD: issue the word, or, while BUSY = 1, drop it and set OVR (10_state.md R28,
70_reset_and_hazards.md R103, R104). -/
def State.writeCmd (s : State) (w : Word) : State := if s.busy then s.setOvr else s.issue w

/-- A host write to STATUS: W1C while idle (10_state.md R27). While BUSY = 1 its effect on DONE, ERR and
OVR is unspecified: free values now, and again at completion (70_reset_and_hazards.md R105; log 10). -/
def State.writeStatus (s : State) (v : Word) : State :=
  if s.busy then
    { s with
      status := s.status.freed s.draws
      breach := { s.breach with status := true }
      draws := s.draws + 1 }
  else s.acknowledge v

/-- Write the register at an offset of the block. ID, CAPS, OUT_LEN and the reserved offsets ignore
writes (10_state.md R22, R23). CFG and the operand registers take the value at any time; the command
in flight does not see it (70_reset_and_hazards.md R105). -/
def State.writeRegister (s : State) (offset : Nat) (v : Word) : State :=
  match offset with
  | 0x04 => { s with rounds := v.extractLsb' 0 5 }
  | 0x08 => s.writeStatus v
  | 0x0C => s.writeCmd v
  | 0x10 => { s with ops := { s.ops with src := v } }
  | 0x14 => { s with ops := { s.ops with srcLen := v } }
  | 0x18 => { s with ops := { s.ops with aux := v } }
  | 0x1C => { s with ops := { s.ops with auxLen := v } }
  | 0x20 => { s with ops := { s.ops with dst := v } }
  | _ => s

/-- The output range of the command in flight; an illegal word has none. -/
def Inflight.outRange (r : Inflight) : Range :=
  match decode r.word with
  | .command i => Machine.outRange i r.ops
  | .illegal _ => { start := 0, len := 0 }

/-- A byte the host may not rely on while BUSY = 1: it lies in the output range of the command in flight
(70_reset_and_hazards.md R105), or the host has written it since the issue (log 11). -/
def State.uncertain (s : State) (a : Nat) : Bool :=
  match s.inflight with
  | none => false
  | some r => r.outRange.holds a || s.breach.touched.contains a

/-- A host read of one byte of BUF. While BUSY = 1 a byte of the output range is unspecified
(70_reset_and_hazards.md R105, log 11). -/
def State.hostBufRead (s : State) (a : Nat) : State :=
  if s.uncertain a then
    { s with rdata := (Config.breachByte s.draws a).setWidth 32, draws := s.draws + 1 }
  else { s with rdata := (s.buf.read a).setWidth 32 }

/-- A host write of one byte of BUF (20_memory.md R36). While BUSY = 1 the byte is unspecified at
completion, whatever was written, and the command reads BUF as it stood at issue (R44): the address is
noted, and `settleBreach` frees it (70_reset_and_hazards.md R105; log 9). -/
def State.hostBufWrite (s : State) (a : Nat) (b : Byte) : State :=
  if s.busy then { s with breach := { s.breach with touched := s.breach.touched.insert a } }
  else { s with buf := s.buf.write a b }

/-- What the host does (10_state.md R20). An access to the register block must be an aligned 32-bit
access (20_memory.md R40), and a BUF address must exist (R35). -/
def hostAct (act : HostAction) (s : State) : Result :=
  match act with
  | .regWrite addr width v =>
    if !inBlock s.params addr then .refused .addressOutsideBlock
    else if !alignedWord s.params addr width then .refused .registerAccess
    else .next (s.writeRegister (addr - s.params.engineBase) v)
  | .regRead addr width =>
    if !inBlock s.params addr then .refused .addressOutsideBlock
    else if !alignedWord s.params addr width then .refused .registerAccess
    else .next { s with rdata := s.readRegister (addr - s.params.engineBase) }
  | .bufWrite a b =>
    if a < s.params.bufSize then .next (s.hostBufWrite a b) else .fault .bufAddressOutside
  | .bufRead a =>
    if a < s.params.bufSize then .next (s.hostBufRead a) else .fault .bufAddressOutside

/-- Give each address of a list the free byte of draw `n`. -/
def Buf.free (m : Buf) (n : Nat) : List Nat → Buf
  | [] => m
  | a :: rest => (m.write a (Config.breachByte n a)).free n rest

/-- The addresses that a BUF write while BUSY = 1 leaves unspecified at completion: the whole output range
of the command and the written bytes (70_reset_and_hazards.md R105). -/
def Breach.unspecified (b : Breach) (p : Params) (out : Range) : List Nat :=
  if b.touched.isEmpty then [] else out.addressesIn p ++ b.touched

/-- At completion, make unspecified what the host's breach left so. A host that kept its duty changes
nothing here (70_reset_and_hazards.md R105; logs 9 and 10). -/
def State.settleBreach (s : State) (out : Range) : State :=
  if s.breach = Breach.none then s
  else
    { s with
      buf := s.buf.free s.draws (s.breach.unspecified s.params out)
      status := if s.breach.status then s.status.freed s.draws else s.status
      breach := Breach.none
      draws := s.draws + 1 }

end Sys2Proof.Machine
end

