-- ==== Sys2Proof/Machine/Engine.lean ====
section
/-! DEFINITION. The engine's turn and the turns of the script. -/

namespace Sys2Proof.Machine

/-- Decode the word in flight and run it; an illegal word ends with ILLEGAL_CMD (30_encoding.md R46, R48). -/
def runWord (w : Word) (s : State) : Result :=
  match decode w with
  | .command i => exec i s
  | .illegal _ => execIllegal s

/-- After a command has run, settle what a broken host duty left unspecified
(70_reset_and_hazards.md R105). -/
def settle (out : Range) : Result → Result
  | .next t => .next (t.settleBreach out)
  | .fault f => .fault f
  | .refused r => .refused r

/-- The engine's turn: complete the command in flight, in one step (20_memory.md R41,
60_exceptions.md R84). An idle engine changes nothing (R98). -/
def engineTurn (s : State) : Result :=
  match s.inflight with
  | none => .next s
  | some r => settle r.outRange (runWord r.word s)

/-- One turn of the machine. When the script is used up, the engine moves: so a command in flight is
completed eventually (70_reset_and_hazards.md R106; log 1). -/
def takeTurn (s : State) : Result :=
  match s.script with
  | [] => engineTurn s
  | .host act :: rest => hostAct act { s with script := rest }
  | .engine :: rest => engineTurn { s with script := rest }
  | .reset :: rest => .next { s with script := rest }.resetInput
  | .capVec level :: rest => .next { s with script := rest, capVec := level }

/-- Put a command word where the engine takes its next one from: the in-flight record, as if the host had
just issued it, with the engine to move next (log 2). -/
def placeWord (s : State) (w : Word) : State :=
  { s.issue w with
    script :=
      match s.script with
      | [] => []
      | turns => .engine :: turns }

end Sys2Proof.Machine
end

