-- ==== Sys2Proof/Machine/Step.lean ====
section
/-! DEFINITION. One step of the machine, and the placing of a command word before it. -/

namespace Sys2Proof.Machine

/-- One step: one turn of the host, of the engine, or of an input (10_state.md R17; log 1). -/
def step (s : State) : Host.Outcome State Fault Refusal := takeTurn s

/-- The state with a command word in flight and the engine to move next, so that the next step runs
exactly that word. The bits from `nbits` on are 0. It stands for the host's CMD write (10_state.md
R24, R28; log 2). -/
def State.withFetchWord (s : State) (nbits w : Nat) : State :=
  placeWord s (BitVec.ofNat 32 (w % 2 ^ nbits))

end Sys2Proof.Machine
end

