-- ==== Sys2Proof/Machine/HostProgram.lean ====
section
/-! DEFINITION. The host's assembly statements and pseudo-instructions (30_encoding.md R51, R52) as lists
of turns. They say what a host writes and in which order; the host's own control flow is not the
block's (10_state.md R24). -/

namespace Sys2Proof.Machine

/-- The registers by name (10_state.md R22). -/
inductive RegName where
  | id
  | cfg
  | status
  | cmd
  | src
  | srcLen
  | aux
  | auxLen
  | dst
  | caps
  | outLen
  deriving DecidableEq, Repr

/-- The offset of a register (10_state.md R22). -/
def RegName.offset : RegName → Nat
  | .id => 0x00
  | .cfg => 0x04
  | .status => 0x08
  | .cmd => 0x0C
  | .src => 0x10
  | .srcLen => 0x14
  | .aux => 0x18
  | .auxLen => 0x1C
  | .dst => 0x20
  | .caps => 0x24
  | .outLen => 0x28

namespace Asm

/-- `wr REG, v` (30_encoding.md R51). -/
def wr (p : Params) (reg : RegName) (v : Word) : Turn :=
  .host (.regWrite (p.engineBase + reg.offset) 4 v)

/-- `rd REG` (30_encoding.md R51). -/
def rd (p : Params) (reg : RegName) : Turn := .host (.regRead (p.engineBase + reg.offset) 4)

/-- `bufw a, HEX` (30_encoding.md R51). -/
def bufw (a : Nat) : List Byte → List Turn
  | [] => []
  | b :: bs => .host (.bufWrite a b) :: bufw (a + 1) bs

/-- `bufz a, n` (30_encoding.md R51). -/
def bufz (a n : Nat) : List Turn := bufw a (zeros n)

/-- `bufr a, n` (30_encoding.md R51). -/
def bufr (a n : Nat) : List Turn := (List.range n).map fun i => .host (.bufRead (a + i))

/-- `cmd w` (30_encoding.md R51). -/
def cmd (p : Params) (w : Word) : Turn := wr p .cmd w

/-- `wait`, when `polls` reads of STATUS see BUSY = 1 before the engine completes and the last one sees
BUSY = 0. Any number of polls is possible (30_encoding.md R52, 70_reset_and_hazards.md R106; log 19). -/
def wait (p : Params) (polls : Nat) : List Turn :=
  List.replicate polls (rd p .status) ++ [.engine, rd p .status]

/-- `setrounds r` (30_encoding.md R52). -/
def setrounds (p : Params) (r : Word) : List Turn := [wr p .cfg r]

/-- `clrstatus` (30_encoding.md R52). -/
def clrstatus (p : Params) : List Turn := [wr p .status 0x0000000E]

/-- `ldkey K, src, len` (30_encoding.md R52). -/
def ldkey (p : Params) (k : KeySel) (src len : Word) (polls : Nat) : List Turn :=
  [wr p .src src, wr p .srcLen len, cmd p (0x00000001 + ((kselOf k).setWidth 32 <<< 8))] ++ wait p polls

/-- `hchacha dst, aux` (30_encoding.md R52). -/
def hchacha (p : Params) (dst aux : Word) (polls : Nat) : List Turn :=
  [wr p .aux aux, wr p .auxLen 16, wr p .dst dst, cmd p 0x10] ++ wait p polls

/-- The operand writes of the forms with five operands, in the order of 30_encoding.md R52. -/
def fiveOperands (p : Params) (dst src len aux auxlen : Word) : List Turn :=
  [wr p .src src, wr p .srcLen len, wr p .aux aux, wr p .auxLen auxlen, wr p .dst dst]

/-- `xstream dst, src, len, aux, auxlen` (30_encoding.md R52). -/
def xstream (p : Params) (dst src len aux auxlen : Word) (polls : Nat) : List Turn :=
  fiveOperands p dst src len aux auxlen ++ [cmd p 0x11] ++ wait p polls

/-- `nh.chunk dst, src, len` (30_encoding.md R52). -/
def nhChunk (p : Params) (dst src len : Word) (polls : Nat) : List Turn :=
  [wr p .src src, wr p .srcLen len, wr p .dst dst, cmd p 0x20] ++ wait p polls

/-- `nh.msg dst, src, len` (30_encoding.md R52). -/
def nhMsg (p : Params) (dst src len : Word) (polls : Nat) : List Turn :=
  [wr p .src src, wr p .srcLen len, wr p .dst dst, cmd p 0x21] ++ wait p polls

/-- `hash.a dst, src, len, aux, auxlen` (30_encoding.md R52). -/
def hashA (p : Params) (dst src len aux auxlen : Word) (polls : Nat) : List Turn :=
  fiveOperands p dst src len aux auxlen ++ [cmd p 0x30] ++ wait p polls

/-- `add128 dst, a, b` (30_encoding.md R52). -/
def add128 (p : Params) (dst a b : Word) (polls : Nat) : List Turn :=
  fiveOperands p dst a 16 b 16 ++ [cmd p 0x31] ++ wait p polls

/-- `sub128 dst, a, b` (30_encoding.md R52). -/
def sub128 (p : Params) (dst a b : Word) (polls : Nat) : List Turn :=
  fiveOperands p dst a 16 b 16 ++ [cmd p 0x32] ++ wait p polls

end Asm

end Sys2Proof.Machine
end

