-- ==== Sys2Proof/Safety.lean ====
section
/-! DEFINITION. The terms claims use: what a safe run is (the invariant, the host's duty), what a state
looks like with something hidden, and the rules' formulas written a second time, straight from their
text and apart from the machine's own functions, so that a claim can hold one against the other. -/

namespace Sys2Proof.Machine

/-! ### Safe states and safe turns -/

/-- The invariant of the block.
* BUF is in canonical form and lists only addresses it has (20_memory.md R35).
* OUT_LEN counts bytes of BUF, and is 0 after an error (10_state.md R29).
* A selected backend means that a universal-hash command has passed its checks, so KN is loaded
  (10_state.md R32).
* An idle block has no breach of the host duty open, and breaches name addresses of BUF
  (70_reset_and_hazards.md R105; log 9). -/
structure State.Inv (s : State) : Prop where
  bufCanonical : s.buf.wf
  bufInside : ∀ c ∈ s.buf.cells, c.1 < s.params.bufSize
  outLenFits : s.outLen.toNat ≤ s.params.bufSize
  errorWritesNothing : s.status.errcode ≠ .none → s.outLen = 0
  backendNeedsKn : s.status.backend ≠ .notSelected → s.keys.kn.valid = true
  idleNoBreach : s.inflight = none → s.breach = Breach.none
  touchedInside : ∀ a ∈ s.breach.touched, a < s.params.bufSize

/-- The turn breaks no duty of 70_reset_and_hazards.md R105: while BUSY = 1 the host neither reads nor writes
BUF, and does not write STATUS. -/
def State.dutyKept (s : State) (turn : Turn) : Bool :=
  !s.busy ||
    match turn with
    | .host (.bufRead _) => false
    | .host (.bufWrite _ _) => false
    | .host (.regWrite addr _ _) => addr != s.params.engineBase + RegName.status.offset
    | .host (.regRead _ _) => true
    | .engine => true
    | .reset => true
    | .capVec _ => true

/-- The turn that `step` takes: the first of the script, or the engine's when there is none. -/
def State.nextTurn (s : State) : Turn :=
  match s.script with
  | [] => .engine
  | turn :: _ => turn

/-! ### Views of a state -/

/-- The state with its next turn taken off the script. -/
def State.popTurn (s : State) : State := { s with script := s.script.tail }

/-- Apply a function to the next state of an outcome. -/
def mapNext (f : State → State) : Result → Result
  | .next t => .next (f t)
  | .fault e => .fault e
  | .refused e => .refused e

/-- A key register with its bytes hidden unless it is valid. -/
def KeyReg.hide {n : Nat} (k : KeyReg n) : KeyReg n :=
  if k.valid then k else { bytes := Vector.replicate n 0, valid := false }

/-- The state with the bytes of every key that is not loaded hidden (70_reset_and_hazards.md R100). -/
def State.hideUnloadedKeys (s : State) : State :=
  { s with
    keys := { ks := s.keys.ks.hide, kt := s.keys.kt.hide, km := s.keys.km.hide, kn := s.keys.kn.hide } }

/-- The state with the backend latch and the capability input hidden (42_nh.md R70). -/
def State.hideBackend (s : State) : State :=
  { s with capVec := false, status := { s.status with backend := .notSelected } }

/-- The backend that a universal-hash command leaves (10_state.md R32). -/
def State.backendAfterHash (s : State) : Backend :=
  if s.status.backend = .notSelected then (if s.capVec = true then .vector else .portable)
  else s.status.backend

end Sys2Proof.Machine

/-! ### The rules' formulas, a second time -/

namespace Sys2Proof.Spec

open Machine

/-- 20_memory.md R38, on numbers. -/
abbrev meets (a n b m : Nat) : Prop := n > 0 ∧ m > 0 ∧ a < b + m ∧ b < a + n

/-- The error that a command's pseudocode raises first, `none` when it completes: R53, R59, R63, R72, R73,
R77, R78 and R80, line by line. -/
def errorOf (i : Instr) (p : Params) (st : KeyStore) (r : Inflight) : ErrCode :=
  let size := p.bufSize
  let src := r.ops.src.toNat
  let srcLen := r.ops.srcLen.toNat
  let aux := r.ops.aux.toNat
  let auxLen := r.ops.auxLen.toNat
  let dst := r.ops.dst.toNat
  let c := (srcLen + 1023) / 1024
  match i with
  | .ldkey k =>
    if srcLen ≠ k.size then .badKeyLen
    else if src + srcLen > size then .range
    else .none
  | .hchacha =>
    if ¬(r.rounds.toNat = 8 ∨ r.rounds.toNat = 12 ∨ r.rounds.toNat = 20) then .badRounds
    else if auxLen ≠ 16 then .badLength
    else if aux + 16 > size ∨ dst + 32 > size then .range
    else if meets dst 32 aux 16 then .overlap
    else if st.ks.valid = false then .keyNotLoaded
    else .none
  | .xstream =>
    if ¬(r.rounds.toNat = 8 ∨ r.rounds.toNat = 12 ∨ r.rounds.toNat = 20) then .badRounds
    else if auxLen > 23 then .badLength
    else if src + srcLen > size ∨ aux + auxLen > size ∨ dst + srcLen > size then .range
    else if (dst ≠ src ∧ meets dst srcLen src srcLen) ∨ meets dst srcLen aux auxLen then .overlap
    else if st.ks.valid = false then .keyNotLoaded
    else .none
  | .nhChunk =>
    if srcLen % 16 ≠ 0 ∨ srcLen < 16 ∨ srcLen > 1024 then .badLength
    else if src + srcLen > size ∨ dst + 32 > size then .range
    else if meets dst 32 src srcLen then .overlap
    else if st.kn.valid = false then .keyNotLoaded
    else .none
  | .nhMsg =>
    if src + srcLen > size ∨ dst + 32 * c > size then .range
    else if meets dst (32 * c) src srcLen then .overlap
    else if st.kn.valid = false then .keyNotLoaded
    else .none
  | .hashA =>
    if src + srcLen > size ∨ aux + auxLen > size ∨ dst + 16 > size then .range
    else if meets dst 16 src srcLen ∨ meets dst 16 aux auxLen then .overlap
    else if st.kt.valid = false ∨ st.km.valid = false ∨ st.kn.valid = false then .keyNotLoaded
    else .none
  | .add128 | .sub128 =>
    if srcLen ≠ 16 ∨ auxLen ≠ 16 then .badLength
    else if src + 16 > size ∨ aux + 16 > size ∨ dst + 16 > size then .range
    else if (dst ≠ src ∧ meets dst 16 src 16) ∨ (dst ≠ aux ∧ meets dst 16 aux 16) then .overlap
    else .none

/-- The operand ranges a command's rule names, input and output (20_memory.md R37). -/
def ranges (i : Instr) (o : Operands) : List (Nat × Nat) :=
  match i with
  | .ldkey _ => [(o.src.toNat, o.srcLen.toNat)]
  | .hchacha => [(o.aux.toNat, 16), (o.dst.toNat, 32)]
  | .xstream =>
    [(o.src.toNat, o.srcLen.toNat), (o.aux.toNat, o.auxLen.toNat), (o.dst.toNat, o.srcLen.toNat)]
  | .nhChunk => [(o.src.toNat, o.srcLen.toNat), (o.dst.toNat, 32)]
  | .nhMsg => [(o.src.toNat, o.srcLen.toNat), (o.dst.toNat, 32 * ((o.srcLen.toNat + 1023) / 1024))]
  | .hashA => [(o.src.toNat, o.srcLen.toNat), (o.aux.toNat, o.auxLen.toNat), (o.dst.toNat, 16)]
  | .add128 | .sub128 => [(o.src.toNat, 16), (o.aux.toNat, 16), (o.dst.toNat, 16)]

/-- The output range meets an input range and is no alias that the command's rule permits
(20_memory.md R38). -/
def overlaps (i : Instr) (o : Operands) : Prop :=
  let src := o.src.toNat
  let srcLen := o.srcLen.toNat
  let aux := o.aux.toNat
  let auxLen := o.auxLen.toNat
  let dst := o.dst.toNat
  match i with
  | .ldkey _ => False
  | .hchacha => meets dst 32 aux 16
  | .xstream => (dst ≠ src ∧ meets dst srcLen src srcLen) ∨ meets dst srcLen aux auxLen
  | .nhChunk => meets dst 32 src srcLen
  | .nhMsg => meets dst (32 * ((srcLen + 1023) / 1024)) src srcLen
  | .hashA => meets dst 16 src srcLen ∨ meets dst 16 aux auxLen
  | .add128 | .sub128 => (dst ≠ src ∧ meets dst 16 src 16) ∨ (dst ≠ aux ∧ meets dst 16 aux 16)

/-- The keys a command reads (60_exceptions.md R85, code 7). -/
def keysOf : Instr → List KeySel
  | .hchacha | .xstream => [.ks]
  | .nhChunk | .nhMsg => [.kn]
  | .hashA => [.kt, .km, .kn]
  | .ldkey _ | .add128 | .sub128 => []

/-- The cause column of 60_exceptions.md R85 for a legal command, code by code. -/
def applies (i : Instr) (p : Params) (st : KeyStore) (r : Inflight) : ErrCode → Prop
  | .none => False
  | .illegalCmd => False
  | .badRounds => (i = .hchacha ∨ i = .xstream) ∧ r.rounds.toNat ∉ [8, 12, 20]
  | .badKeyLen => ∃ k, i = .ldkey k ∧ r.ops.srcLen.toNat ≠ k.size
  | .badLength =>
    (i = .hchacha ∧ r.ops.auxLen.toNat ≠ 16) ∨ (i = .xstream ∧ r.ops.auxLen.toNat > 23) ∨
      (i = .nhChunk ∧
        ¬(16 ∣ r.ops.srcLen.toNat ∧ 16 ≤ r.ops.srcLen.toNat ∧ r.ops.srcLen.toNat ≤ 1024)) ∨
      ((i = .add128 ∨ i = .sub128) ∧ (r.ops.srcLen.toNat ≠ 16 ∨ r.ops.auxLen.toNat ≠ 16))
  | .range => ∃ x ∈ ranges i r.ops, x.1 + x.2 > p.bufSize
  | .overlap => overlaps i r.ops
  | .keyNotLoaded => ∃ k ∈ keysOf i, st.valid k = false

/-- Word `t` of a byte string as a number (42_nh.md R66). -/
def word (bs : List Byte) (t : Nat) : Nat := leNat (slice bs (4 * t) 4)

/-- Accumulator `h_i` of 42_nh.md R66, as a sum of natural numbers taken mod 2^64. -/
def nhAccumulator (kn m : List Byte) (i : Nat) : Nat :=
  (∑ q ∈ Finset.range (m.length / 16),
    ((word m (4 * q) + word kn (4 * q + 4 * i)) % 2 ^ 32
        * ((word m (4 * q + 2) + word kn (4 * q + 4 * i + 2)) % 2 ^ 32)
      + (word m (4 * q + 1) + word kn (4 * q + 4 * i + 1)) % 2 ^ 32
        * ((word m (4 * q + 3) + word kn (4 * q + 4 * i + 3)) % 2 ^ 32))) % 2 ^ 64

/-- The digest of 42_nh.md R66. -/
def nhDigest (kn m : List Byte) : List Byte :=
  bytesLE 8 (nhAccumulator kn m 0) ++ bytesLE 8 (nhAccumulator kn m 1)
    ++ bytesLE 8 (nhAccumulator kn m 2) ++ bytesLE 8 (nhAccumulator kn m 3)

/-- `chunk_q` of 42_nh.md R68: bytes 1024q up to min(1024(q+1), len), zero-padded to a multiple of 16. -/
def chunk (l : List Byte) (q : Nat) : List Byte :=
  let raw := slice l (1024 * q) (min (1024 * (q + 1)) l.length - 1024 * q)
  raw ++ List.replicate ((16 - raw.length % 16) % 16) 0

/-- NHMSG of 42_nh.md R68. -/
def nhMsg (kn l : List Byte) : List Byte :=
  (List.range ((l.length + 1023) / 1024)).flatMap fun q => nhDigest kn (chunk l q)

/-- rotl32 (00_scope.md R11). -/
def rotl (x : Word) (n : Nat) : Word := (x <<< n) ||| (x >>> (32 - n))

/-- QR of 41_stream.md R56, one assignment a line. -/
def quarterRound (a b c d : Nat) (s : Nat → Word) : Nat → Word :=
  let s := Function.update s a (s a + s b)
  let s := Function.update s d (rotl (s d ^^^ s a) 16)
  let s := Function.update s c (s c + s d)
  let s := Function.update s b (rotl (s b ^^^ s c) 12)
  let s := Function.update s a (s a + s b)
  let s := Function.update s d (rotl (s d ^^^ s a) 8)
  let s := Function.update s c (s c + s d)
  Function.update s b (rotl (s b ^^^ s c) 7)

/-- A double-round of 41_stream.md R57. -/
def doubleRound (s : Nat → Word) : Nat → Word :=
  let s := quarterRound 0 4 8 12 s
  let s := quarterRound 1 5 9 13 s
  let s := quarterRound 2 6 10 14 s
  let s := quarterRound 3 7 11 15 s
  let s := quarterRound 0 5 10 15 s
  let s := quarterRound 1 6 11 12 s
  let s := quarterRound 2 7 8 13 s
  quarterRound 3 4 9 14 s

/-- The initial state of 41_stream.md R55. -/
def chaInit (key n : List Byte) (t : Nat) : Word :=
  if t = 0 then 0x61707865
  else if t = 1 then 0x3320646e
  else if t = 2 then 0x79622d32
  else if t = 3 then 0x6b206574
  else if t < 12 then BitVec.ofNat 32 (word key (t - 4))
  else BitVec.ofNat 32 (word n (t - 12))

/-- `HChaCha_r` of 41_stream.md R57 and R58. -/
def hchacha (r : Nat) (key n : List Byte) : List Byte :=
  let s := doubleRound^[r / 2] (chaInit key n)
  [0, 1, 2, 3, 12, 13, 14, 15].flatMap fun t => bytesLE 4 (s t).toNat

/-- A list of bytes as a byte string of fixed length. -/
def fixed (n : Nat) (l : List Byte) : Vector Byte n := Vector.ofFn fun i : Fin n => l.getD i.val 0

/-- The full nonce of 41_stream.md R60: `ν ‖ byte(0x01) ‖ 0^(23 − len(ν))`. -/
def fullNonce (nu : List Byte) : List Byte := nu ++ [0x01] ++ List.replicate (23 - nu.length) 0

/-- `XStream_r(K, P, ν)` of 41_stream.md R61, byte by byte, over the block's KSTREAM. -/
def xstream (r : Nat) (key p nu : List Byte) : List Byte :=
  let subkey := fixed 32 (hchacha r key ((fullNonce nu).take 16))
  let inner := fixed 8 ((fullNonce nu).drop 16)
  (List.range p.length).map fun j =>
    p.getD j 0 ^^^ (Config.kstream r subkey inner (BitVec.ofNat 64 (j / 64))).toList.getD (j % 64) 0

/-- The sum mod 2^128 of 43_combiner.md R74. -/
def sum128 (a b : List Byte) : List Byte := bytesLE 16 ((leNat a + leNat b) % 2 ^ 128)

/-- The difference mod 2^128 of 43_combiner.md R75. -/
def diff128 (a b : List Byte) : List Byte := bytesLE 16 ((2 ^ 128 + leNat a - leNat b) % 2 ^ 128)

/-- `HashA(T, L)` of 43_combiner.md R79, over the block's MAC. -/
def hashA (st : KeyStore) (t l : List Byte) : List Byte :=
  let hdr := bytesLE 8 (8 * l.length) ++ List.replicate 8 0
  sum128 (Config.mac st.kt.bytes (hdr ++ t)).toList
    (Config.mac st.km.bytes (nhMsg st.kn.bytes.toList l)).toList

/-- The state after a command that ends with an error (60_exceptions.md R88). -/
def failed (s : State) (code : ErrCode) : State :=
  { s with
    inflight := none
    status := { s.status with done := true, err := true, errcode := code }
    outLen := 0 }

/-- The state after a command that wrote `bytes` at `a` and completed (60_exceptions.md R87). -/
def stored (s : State) (a : Nat) (bytes : List Byte) : State :=
  { s with
    inflight := none
    status := { s.status with done := true, errcode := .none }
    outLen := BitVec.ofNat 32 bytes.length
    buf := s.buf.writeBytes a bytes }

/-- The state with the backend latched (10_state.md R32). -/
def latched (s : State) : State :=
  { s with status := { s.status with backend := s.backendAfterHash } }

end Sys2Proof.Spec
end

