-- ==== Sys2Proof/Certificates/Slice0/Obligations.lean ====
section
/-! DEFINITION. The statements for the provers. Each formalises a rule of spec/, or rests on the sections
it cites in OBLIGATIONS.json. `Spec.…` are the rules' formulas, written apart from the machine. -/

open Sys2Proof Sys2Proof.Machine

/-! ### Encoding -/

/-- The words of 30_encoding.md R49, each field written out as RSVD, KSEL, OP (R46). -/
def Obligations.CommandWordsDecode : Prop :=
  decode (0b0000000000000000000000#22 ++ 0b00#2 ++ 0b00000001#8) = .command (.ldkey .ks) ∧
  decode (0b0000000000000000000000#22 ++ 0b01#2 ++ 0b00000001#8) = .command (.ldkey .kt) ∧
  decode (0b0000000000000000000000#22 ++ 0b10#2 ++ 0b00000001#8) = .command (.ldkey .km) ∧
  decode (0b0000000000000000000000#22 ++ 0b11#2 ++ 0b00000001#8) = .command (.ldkey .kn) ∧
  decode 0x00000010#32 = .command .hchacha ∧
  decode 0x00000011#32 = .command .xstream ∧
  decode 0x00000020#32 = .command .nhChunk ∧
  decode 0x00000021#32 = .command .nhMsg ∧
  decode 0x00000030#32 = .command .hashA ∧
  decode 0x00000031#32 = .command .add128 ∧
  decode 0x00000032#32 = .command .sub128

/-- Decode and encode agree in both directions: every command is well formed, has exactly one word, and
that word has exactly one meaning; in particular every other of the 2^32 words is illegal
(30_encoding.md R46, R49, R50). -/
def Obligations.DecodeAndEncodeAgree : Prop :=
  ∀ (w : Word) (i : Instr), i.wellFormed = true ∧ (decode w = .command i ↔ w = encode i)

/-- 30_encoding.md R48: a word is legal iff it matches one row of the opcode map, the mask leaves KSEL free
for LDKEY only, no word matches two rows, and an illegal word in flight ends with ILLEGAL_CMD, which
changes nothing but STATUS and OUT_LEN. -/
def Obligations.OpcodeMapDecidesLegality : Prop :=
  (∀ w : Word, (∃ i, decode w = .command i) ↔ ∃ row ∈ opcodeMap, w &&& row.mask = row.mtch) ∧
  (∀ row ∈ opcodeMap, row.mask = if row.mnemonic = "LDKEY" then 0xFFFFFCFF#32 else 0xFFFFFFFF#32) ∧
  (∀ w : Word, ∀ row ∈ opcodeMap, ∀ row' ∈ opcodeMap,
    w &&& row.mask = row.mtch → w &&& row'.mask = row'.mtch → row = row') ∧
  (∀ (s : State) (r : Inflight), s.inflight = some r → s.breach = Breach.none → s.script = [] →
    (∀ row ∈ opcodeMap, ¬(r.word &&& row.mask = row.mtch)) →
    step s = .next (Spec.failed s .illegalCmd))

/-! ### Steps -/

/-- When the engine moves next and the word in flight decodes to `i`, the step is `exec i` at that state
(with the engine's turn taken off the script, if one was there), followed by what a broken host duty
leaves to settle; a host that kept its duty leaves nothing (60_exceptions.md R84). That the script says
who moves next is the model's choice (log 1). -/
def Obligations.StepRunsTheCommandInFlight : Prop :=
  ∀ (s : State) (r : Inflight) (i : Instr), s.inflight = some r → decode r.word = .command i →
    s.nextTurn = .engine →
      step s = settle r.outRange (exec i s.popTurn) ∧
      (s.breach = Breach.none → step s = exec i s.popTurn)

/-- A word placed by `withFetchWord` is run by the very next step, on the state in which it is in flight
with the snapshot of the live registers. This is the model's own interface (log 2). -/
def Obligations.PlacedWordRunsNext : Prop :=
  ∀ (s : State) (nbits w : Nat) (i : Instr), decodeTableWord nbits w = some i →
    step (s.withFetchWord nbits w) = exec i (s.issue (BitVec.ofNat 32 (w % 2 ^ nbits)))

/-- No command stops on any path: whatever is in flight, the command completes with a next state in which
BUSY = 0 and DONE = 1 (60_exceptions.md R82, R84). -/
def Obligations.EveryCommandEndsWithDone : Prop :=
  ∀ (i : Instr) (s : State), (∃ r, s.inflight = some r) →
    ∃ t, exec i s = .next t ∧ t.busy = false ∧ t.status.done = true

/-! ### The commands

Each statement gives the command's one word, the next state when every check passes, and the next state
for every error of its pseudocode. -/

/-- 40_keyload.md R53. On success the key register holds the source bytes and is valid, the other keys
are as before, nothing else changes but STATUS and OUT_LEN = 0; otherwise the error of the pseudocode
is raised and nothing else changes. -/
def Obligations.LdkeyLoadsTheKeyRegister : Prop :=
  (∀ (k : KeySel) (w : Word), decode w = .command (.ldkey k) ↔
    w = match k with
        | .ks => 0x00000001
        | .kt => 0x00000101
        | .km => 0x00000201
        | .kn => 0x00000301) ∧
  ∀ (k : KeySel) (s : State) (r : Inflight), s.inflight = some r →
    (r.ops.srcLen.toNat = k.size → r.ops.src.toNat + k.size ≤ s.params.bufSize →
      ∃ st : KeyStore,
        (st.get k).bytes.toList = s.memRead r.ops.src.toNat k.size ∧ (st.get k).valid = true ∧
        (∀ j, j ≠ k → st.get j = s.keys.get j) ∧
        exec (.ldkey k) s = .next { Spec.stored s 0 [] with keys := st }) ∧
    (∀ e, Spec.errorOf (.ldkey k) s.params s.keys r = e → e ≠ .none →
      exec (.ldkey k) s = .next (Spec.failed s e))

/-- 41_stream.md R59. -/
def Obligations.HchachaWritesTheSubkey : Prop :=
  (∀ w : Word, decode w = .command .hchacha ↔ w = 0x00000010) ∧
  ∀ (s : State) (r : Inflight), s.inflight = some r →
    ((r.rounds = 8 ∨ r.rounds = 12 ∨ r.rounds = 20) → r.ops.auxLen.toNat = 16 →
      r.ops.aux.toNat + 16 ≤ s.params.bufSize → r.ops.dst.toNat + 32 ≤ s.params.bufSize →
      ¬Spec.meets r.ops.dst.toNat 32 r.ops.aux.toNat 16 → s.keys.ks.valid = true →
      exec .hchacha s =
        .next (Spec.stored s r.ops.dst.toNat
          (Spec.hchacha r.rounds.toNat s.keys.ks.bytes.toList (s.memRead r.ops.aux.toNat 16)))) ∧
    (∀ e, Spec.errorOf .hchacha s.params s.keys r = e → e ≠ .none →
      exec .hchacha s = .next (Spec.failed s e))

/-- 41_stream.md R63, every form: an empty message, in place (DST = SRC), and every nonce length up to 23. -/
def Obligations.XstreamXorsTheKeystream : Prop :=
  (∀ w : Word, decode w = .command .xstream ↔ w = 0x00000011) ∧
  ∀ (s : State) (r : Inflight), s.inflight = some r →
    ((r.rounds = 8 ∨ r.rounds = 12 ∨ r.rounds = 20) → r.ops.auxLen.toNat ≤ 23 →
      r.ops.src.toNat + r.ops.srcLen.toNat ≤ s.params.bufSize →
      r.ops.aux.toNat + r.ops.auxLen.toNat ≤ s.params.bufSize →
      r.ops.dst.toNat + r.ops.srcLen.toNat ≤ s.params.bufSize →
      (r.ops.dst = r.ops.src ∨
        ¬Spec.meets r.ops.dst.toNat r.ops.srcLen.toNat r.ops.src.toNat r.ops.srcLen.toNat) →
      ¬Spec.meets r.ops.dst.toNat r.ops.srcLen.toNat r.ops.aux.toNat r.ops.auxLen.toNat →
      s.keys.ks.valid = true →
      exec .xstream s =
        .next (Spec.stored s r.ops.dst.toNat
          (Spec.xstream r.rounds.toNat s.keys.ks.bytes.toList
            (s.memRead r.ops.src.toNat r.ops.srcLen.toNat)
            (s.memRead r.ops.aux.toNat r.ops.auxLen.toNat)))) ∧
    (∀ e, Spec.errorOf .xstream s.params s.keys r = e → e ≠ .none →
      exec .xstream s = .next (Spec.failed s e))

/-- 42_nh.md R72. The digest is that of R66 whatever the backend; the latch is taken if it was not. -/
def Obligations.NhChunkWritesTheDigest : Prop :=
  (∀ w : Word, decode w = .command .nhChunk ↔ w = 0x00000020) ∧
  ∀ (s : State) (r : Inflight), s.inflight = some r →
    (r.ops.srcLen.toNat % 16 = 0 → 16 ≤ r.ops.srcLen.toNat → r.ops.srcLen.toNat ≤ 1024 →
      r.ops.src.toNat + r.ops.srcLen.toNat ≤ s.params.bufSize →
      r.ops.dst.toNat + 32 ≤ s.params.bufSize →
      ¬Spec.meets r.ops.dst.toNat 32 r.ops.src.toNat r.ops.srcLen.toNat → s.keys.kn.valid = true →
      exec .nhChunk s =
        .next (Spec.stored (Spec.latched s) r.ops.dst.toNat
          (Spec.nhDigest s.keys.kn.bytes.toList (s.memRead r.ops.src.toNat r.ops.srcLen.toNat)))) ∧
    (∀ e, Spec.errorOf .nhChunk s.params s.keys r = e → e ≠ .none →
      exec .nhChunk s = .next (Spec.failed s e))

/-- 42_nh.md R73, the empty message included: it writes nothing and still latches the backend. -/
def Obligations.NhMsgWritesTheDigests : Prop :=
  (∀ w : Word, decode w = .command .nhMsg ↔ w = 0x00000021) ∧
  ∀ (s : State) (r : Inflight), s.inflight = some r →
    (r.ops.src.toNat + r.ops.srcLen.toNat ≤ s.params.bufSize →
      r.ops.dst.toNat + 32 * ((r.ops.srcLen.toNat + 1023) / 1024) ≤ s.params.bufSize →
      ¬Spec.meets r.ops.dst.toNat (32 * ((r.ops.srcLen.toNat + 1023) / 1024)) r.ops.src.toNat
        r.ops.srcLen.toNat →
      s.keys.kn.valid = true →
      exec .nhMsg s =
        .next (Spec.stored (Spec.latched s) r.ops.dst.toNat
          (Spec.nhMsg s.keys.kn.bytes.toList (s.memRead r.ops.src.toNat r.ops.srcLen.toNat)))) ∧
    (∀ e, Spec.errorOf .nhMsg s.params s.keys r = e → e ≠ .none →
      exec .nhMsg s = .next (Spec.failed s e))

/-- 43_combiner.md R80, L and T of any length, both possibly empty. -/
def Obligations.HashAWritesTheHash : Prop :=
  (∀ w : Word, decode w = .command .hashA ↔ w = 0x00000030) ∧
  ∀ (s : State) (r : Inflight), s.inflight = some r →
    (r.ops.src.toNat + r.ops.srcLen.toNat ≤ s.params.bufSize →
      r.ops.aux.toNat + r.ops.auxLen.toNat ≤ s.params.bufSize →
      r.ops.dst.toNat + 16 ≤ s.params.bufSize →
      ¬Spec.meets r.ops.dst.toNat 16 r.ops.src.toNat r.ops.srcLen.toNat →
      ¬Spec.meets r.ops.dst.toNat 16 r.ops.aux.toNat r.ops.auxLen.toNat →
      s.keys.kt.valid = true → s.keys.km.valid = true → s.keys.kn.valid = true →
      exec .hashA s =
        .next (Spec.stored (Spec.latched s) r.ops.dst.toNat
          (Spec.hashA s.keys (s.memRead r.ops.aux.toNat r.ops.auxLen.toNat)
            (s.memRead r.ops.src.toNat r.ops.srcLen.toNat)))) ∧
    (∀ e, Spec.errorOf .hashA s.params s.keys r = e → e ≠ .none →
      exec .hashA s = .next (Spec.failed s e))

/-- 43_combiner.md R77, the aliases DST = SRC, DST = AUX and SRC = AUX included. -/
def Obligations.Add128WritesTheSum : Prop :=
  (∀ w : Word, decode w = .command .add128 ↔ w = 0x00000031) ∧
  ∀ (s : State) (r : Inflight), s.inflight = some r →
    (r.ops.srcLen.toNat = 16 → r.ops.auxLen.toNat = 16 →
      r.ops.src.toNat + 16 ≤ s.params.bufSize → r.ops.aux.toNat + 16 ≤ s.params.bufSize →
      r.ops.dst.toNat + 16 ≤ s.params.bufSize →
      (r.ops.dst = r.ops.src ∨ ¬Spec.meets r.ops.dst.toNat 16 r.ops.src.toNat 16) →
      (r.ops.dst = r.ops.aux ∨ ¬Spec.meets r.ops.dst.toNat 16 r.ops.aux.toNat 16) →
      exec .add128 s =
        .next (Spec.stored s r.ops.dst.toNat
          (Spec.sum128 (s.memRead r.ops.src.toNat 16) (s.memRead r.ops.aux.toNat 16)))) ∧
    (∀ e, Spec.errorOf .add128 s.params s.keys r = e → e ≠ .none →
      exec .add128 s = .next (Spec.failed s e))

/-- 43_combiner.md R78: A at SRC minus B at AUX, with the aliases of ADD128. -/
def Obligations.Sub128WritesTheDifference : Prop :=
  (∀ w : Word, decode w = .command .sub128 ↔ w = 0x00000032) ∧
  ∀ (s : State) (r : Inflight), s.inflight = some r →
    (r.ops.srcLen.toNat = 16 → r.ops.auxLen.toNat = 16 →
      r.ops.src.toNat + 16 ≤ s.params.bufSize → r.ops.aux.toNat + 16 ≤ s.params.bufSize →
      r.ops.dst.toNat + 16 ≤ s.params.bufSize →
      (r.ops.dst = r.ops.src ∨ ¬Spec.meets r.ops.dst.toNat 16 r.ops.src.toNat 16) →
      (r.ops.dst = r.ops.aux ∨ ¬Spec.meets r.ops.dst.toNat 16 r.ops.aux.toNat 16) →
      exec .sub128 s =
        .next (Spec.stored s r.ops.dst.toNat
          (Spec.diff128 (s.memRead r.ops.src.toNat 16) (s.memRead r.ops.aux.toNat 16)))) ∧
    (∀ e, Spec.errorOf .sub128 s.params s.keys r = e → e ≠ .none →
      exec .sub128 s = .next (Spec.failed s e))

/-! ### Errors and completion -/

/-- 60_exceptions.md R86, with the causes of R85: an engine's turn reports the first code of the order that
applies to the command (the order is that of the codes), and no error iff none applies; a word that
matches no row of the opcode map has only ILLEGAL_CMD. -/
def Obligations.FirstErrorIsReported : Prop :=
  ∀ (s t : State) (r : Inflight), s.inflight = some r → s.nextTurn = .engine → step s = .next t →
    ((∀ row ∈ opcodeMap, ¬(r.word &&& row.mask = row.mtch)) → t.status.errcode = .illegalCmd) ∧
    (∀ i, decode r.word = .command i →
      (t.status.errcode = .none ∧ ∀ e, ¬Spec.applies i s.params s.keys r e) ∨
      (Spec.applies i s.params s.keys r t.status.errcode ∧
        ∀ e : ErrCode, e.code.toNat < t.status.errcode.code.toNat →
          ¬Spec.applies i s.params s.keys r e))

/-- 60_exceptions.md R88: an error, ILLEGAL_CMD included, sets BUSY, DONE, ERRCODE, ERR and OUT_LEN as the
rule says, and nothing else of the block changes (the turn is taken off the model's script). -/
def Obligations.ErrorsChangeNothingElse : Prop :=
  ∀ (s t : State) (r : Inflight), s.inflight = some r → s.breach = Breach.none →
    s.nextTurn = .engine → step s = .next t → t.status.errcode ≠ .none →
    t.busy = false ∧ t.status.done = true ∧ t.status.err = true ∧ t.outLen = 0 ∧
    t = { s with
          script := s.script.tail
          inflight := none
          outLen := t.outLen
          status := { t.status with ovr := s.status.ovr, backend := s.status.backend } }

/-- 60_exceptions.md R87: a success sets BUSY, DONE, ERRCODE and OUT_LEN as the rule says, and leaves ERR
and OVR as they were. -/
def Obligations.SuccessSetsStatusAndLength : Prop :=
  ∀ (i : Instr) (s t : State) (r : Inflight), s.inflight = some r → exec i s = .next t →
    t.status.errcode = .none →
    t.busy = false ∧ t.status.done = true ∧ t.outLen.toNat = (outRange i r.ops).len ∧
    t.status.err = s.status.err ∧ t.status.ovr = s.status.ovr

/-! ### Frames -/

/-- What LDKEY leaves alone: every byte of BUF, CFG and the operand registers, every key but the one it
loads, the backend latch, OVR, and everything outside the block (40_keyload.md R53). -/
def Obligations.LdkeyFrame : Prop :=
  ∀ (k : KeySel) (s t : State), exec (.ldkey k) s = .next t →
    (∀ a, t.buf.read a = s.buf.read a) ∧ (∀ j, j ≠ k → t.keys.get j = s.keys.get j) ∧
    t.rounds = s.rounds ∧ t.ops = s.ops ∧ t.status.backend = s.status.backend ∧
    t.status.ovr = s.status.ovr ∧ t.params = s.params ∧ t.capVec = s.capVec ∧
    t.script = s.script ∧ t.rdata = s.rdata ∧ t.breach = s.breach ∧ t.draws = s.draws

/-- What the seven storing commands leave alone, on a BUF in canonical form: every byte of BUF outside the
output range the meaning itself computes, every key, CFG, the operand registers, OVR, and everything
outside the block; and the backend latch, except that a universal-hash command may take it once. -/
def Obligations.StoringFrame : Prop :=
  ∀ (i : Instr) (s t : State) (r : Inflight), (∀ k, i ≠ .ldkey k) → s.buf.wf →
    s.inflight = some r → exec i s = .next t →
    (∀ a, (outRange i r.ops).holds a = false → t.buf.read a = s.buf.read a) ∧
    t.keys = s.keys ∧ t.rounds = s.rounds ∧ t.ops = s.ops ∧ t.status.ovr = s.status.ovr ∧
    (t.status.backend = s.status.backend ∨
      ((i = .nhChunk ∨ i = .nhMsg ∨ i = .hashA) ∧ s.status.backend = .notSelected ∧
        t.status.backend = s.backendAfterHash)) ∧
    t.params = s.params ∧ t.capVec = s.capVec ∧ t.script = s.script ∧ t.rdata = s.rdata ∧
    t.breach = s.breach ∧ t.draws = s.draws

/-! ### Issue and snapshot -/

/-- 70_reset_and_hazards.md R103: a CMD write with BUSY = 0 takes the snapshot and sets BUSY = 1; everything
else is as before. -/
def Obligations.CmdWriteTakesTheSnapshot : Prop :=
  ∀ (s : State) (w : Word) (rest : List Turn), s.busy = false →
    s.script = Asm.cmd s.params w :: rest →
    ∃ t, step s = .next t ∧ t.busy = true ∧
      t.inflight = some
        { word := w
          ops := { src := s.ops.src, srcLen := s.ops.srcLen, aux := s.ops.aux,
                   auxLen := s.ops.auxLen, dst := s.ops.dst }
          rounds := s.rounds } ∧
      t = { s with script := rest, inflight := t.inflight, breach := Breach.none }

/-- 70_reset_and_hazards.md R104: a CMD write while BUSY = 1 changes nothing but OVR. -/
def Obligations.CmdWriteWhileBusySetsOnlyOvr : Prop :=
  ∀ (s : State) (w : Word) (rest : List Turn), s.busy = true →
    s.script = Asm.cmd s.params w :: rest →
    step s = .next { s with script := rest, status := { s.status with ovr := true } }

/-- 10_state.md R33: a command reads only the in-flight record, never the live operand registers or CFG. -/
def Obligations.CommandsReadOnlyTheSnapshot : Prop :=
  ∀ (i : Instr) (s : State) (o : Operands) (x : BitVec 5), s.busy = true →
    exec i { s with ops := o, rounds := x } = mapNext (fun t => { t with ops := o, rounds := x }) (exec i s)

/-- A write to CFG or an operand register while BUSY = 1 is stored and does not reach the command in flight:
writing before or after the completion gives the same state (20_memory.md R44,
70_reset_and_hazards.md R105). -/
def Obligations.OperandWriteCommutesWithCompletion : Prop :=
  ∀ (s : State) (reg : RegName) (v : Word), s.busy = true →
    (reg = .cfg ∨ reg = .src ∨ reg = .srcLen ∨ reg = .aux ∨ reg = .auxLen ∨ reg = .dst) →
    ∃ t, core.run 2 { s with script := [Asm.wr s.params reg v, .engine] } = .next t ∧
      core.run 2 { s with script := [.engine, Asm.wr s.params reg v] } = .next t

/-! ### Memory -/

/-- MemWrite and MemRead (00_scope.md R15, 20_memory.md R35, R39): a write puts the bytes in order and leaves
every other byte as before, on a BUF in canonical form, which it keeps; MemRead of `n` bytes at `a` is the
bytes `a` to `a + n - 1` in rising order, so that it gives back what was just written; the value of a byte
string read this way is little-endian, and so are the bytes of a value. -/
def Obligations.MemWriteThenRead : Prop :=
  (∀ (m : Buf) (a x : Nat) (bs : List Byte), m.wf →
    (m.writeBytes a bs).wf ∧
    (m.writeBytes a bs).read x =
      if a ≤ x ∧ x < a + bs.length then bs.getD (x - a) 0 else m.read x) ∧
  (∀ (s : State) (a n : Nat), (s.memRead a n).length = n ∧
    ∀ i, i < n → (s.memRead a n)[i]? = some (s.buf.read (a + i))) ∧
  (∀ (s : State) (a : Nat) (bs : List Byte), s.buf.wf →
    { s with buf := s.buf.writeBytes a bs }.memRead a bs.length = bs) ∧
  (∀ (s : State) (a n : Nat),
    leNat (s.memRead a n) = ∑ i ∈ Finset.range n, (s.buf.read (a + i)).toNat * 2 ^ (8 * i)) ∧
  (∀ n v : Nat, (bytesLE n v).length = n ∧
    ∀ i, i < n → (bytesLE n v)[i]? = some (BitVec.ofNat 8 (v / 2 ^ (8 * i))))

/-- The host port: a byte written while BUSY = 0 is read back, every other byte and everything else is as
before, and a read changes nothing but what the host holds (20_memory.md R36, R42). -/
def Obligations.HostPortReadsWhatItWrote : Prop :=
  ∀ (s : State) (a : Nat) (b : Byte) (rest : List Turn), s.busy = false → s.buf.wf →
    a < s.params.bufSize →
    (s.script = .host (.bufWrite a b) :: rest →
      ∃ t, step s = .next t ∧ t.buf.read a = b ∧ (∀ x, x ≠ a → t.buf.read x = s.buf.read x) ∧
        t = { s with script := rest, buf := t.buf }) ∧
    (s.script = .host (.bufRead a) :: rest →
      step s = .next { s with script := rest, rdata := (s.buf.read a).setWidth 32 })

/-! ### Registers -/

/-- 10_state.md R22 and R23: what each offset of the register block reads as. -/
def Obligations.RegisterMapReads : Prop :=
  ∀ s : State,
    s.readRegister 0x00 = 0x55484541 ∧ s.readRegister 0x04 = s.rounds.setWidth 32 ∧
    s.readRegister 0x08 = s.statusWord ∧ s.readRegister 0x0C = 0 ∧
    s.readRegister 0x10 = s.ops.src ∧ s.readRegister 0x14 = s.ops.srcLen ∧
    s.readRegister 0x18 = s.ops.aux ∧ s.readRegister 0x1C = s.ops.auxLen ∧
    s.readRegister 0x20 = s.ops.dst ∧
    s.readRegister 0x24 = (if s.capVec = true then 1 else 0) ∧ s.readRegister 0x28 = s.outLen ∧
    (∀ off, 0x2C ≤ off → off ≤ 0xFC → s.readRegister off = 0)

/-- An aligned 32-bit host access to the block is one step: a read returns the register at its offset and
changes nothing but what the host holds; a write is the write of that register (10_state.md R20, R22,
20_memory.md R42). -/
def Obligations.RegisterAccessIsOneStep : Prop :=
  ∀ (s : State) (off : Nat) (v : Word) (rest : List Turn), off < 256 → off % 4 = 0 →
    (s.script = .host (.regRead (s.params.engineBase + off) 4) :: rest →
      step s = .next { s with script := rest, rdata := s.readRegister off }) ∧
    (s.script = .host (.regWrite (s.params.engineBase + off) 4 v) :: rest →
      step s = .next ({ s with script := rest }.writeRegister off v))

/-- 10_state.md R27: the fields of STATUS, its reserved bits, the numbers of ERRCODE (60_exceptions.md R85) and
of BACKEND (R27), and that ERRCODE is at most 7 and BACKEND is never 3. -/
def Obligations.StatusWordFields : Prop :=
  (ErrCode.none.code = 0 ∧ ErrCode.illegalCmd.code = 1 ∧ ErrCode.badRounds.code = 2 ∧
    ErrCode.badKeyLen.code = 3 ∧ ErrCode.badLength.code = 4 ∧ ErrCode.range.code = 5 ∧
    ErrCode.overlap.code = 6 ∧ ErrCode.keyNotLoaded.code = 7) ∧
  (Backend.notSelected.code = 0 ∧ Backend.portable.code = 1 ∧ Backend.vector.code = 2) ∧
  ∀ s : State,
    s.statusWord.getLsbD 0 = s.busy ∧ s.statusWord.getLsbD 1 = s.status.done ∧
    s.statusWord.getLsbD 2 = s.status.err ∧ s.statusWord.getLsbD 3 = s.status.ovr ∧
    s.statusWord.extractLsb' 8 4 = s.status.errcode.code ∧
    s.statusWord.extractLsb' 16 2 = s.status.backend.code ∧
    s.statusWord.getLsbD 20 = s.keys.ks.valid ∧ s.statusWord.getLsbD 21 = s.keys.kt.valid ∧
    s.statusWord.getLsbD 22 = s.keys.km.valid ∧ s.statusWord.getLsbD 23 = s.keys.kn.valid ∧
    s.statusWord &&& 0xFF0CF0F0 = 0 ∧
    (s.statusWord.extractLsb' 8 4).toNat ≤ 7 ∧ s.statusWord.extractLsb' 16 2 ≠ 3

/-- 10_state.md R27: a host write to STATUS while BUSY = 0 clears each W1C bit written as 1 and leaves every
other bit, and everything else, unchanged. -/
def Obligations.StatusWriteClearsWrittenOnes : Prop :=
  ∀ (s : State) (v : Word) (rest : List Turn), s.busy = false →
    s.script = Asm.wr s.params .status v :: rest →
    ∃ t, step s = .next t ∧ t.statusWord = s.statusWord &&& ~~~(v &&& 0x0000000E) ∧
      t = { s with script := rest, status := t.status }

/-- Writes to the other registers: CFG keeps bits [4:0], an operand register keeps the whole value, at any
time and with nothing else changed; ID, CAPS, OUT_LEN and the reserved offsets ignore writes
(10_state.md R21, R23, R26, 20_memory.md R42). -/
def Obligations.RegisterWritesStoreOrAreIgnored : Prop :=
  ∀ (s : State) (v : Word),
    s.writeRegister 0x04 v = { s with rounds := v.setWidth 5 } ∧
    (s.writeRegister 0x04 v).readRegister 0x04 = v &&& 0x1F ∧
    (∀ off ∈ [0x10, 0x14, 0x18, 0x1C, 0x20],
      (s.writeRegister off v).readRegister off = v ∧
      (∀ off', off' ≠ off → (s.writeRegister off v).readRegister off' = s.readRegister off') ∧
      s.writeRegister off v = { s with ops := (s.writeRegister off v).ops }) ∧
    (∀ off, off = 0x00 ∨ off = 0x24 ∨ 0x28 ≤ off → s.writeRegister off v = s)

/-- A step stops exactly on an ill-formed host action: a register access that is not an aligned 32-bit
access of the block (20_memory.md R40, 93 U6) or a BUF access outside BUF. It is the model's own choice
how it stops (logs 13, 14, 15). No command, whatever its operands, stops the machine (93 U19). -/
def Obligations.StepStopsExactlyOnIllFormedTurns : Prop :=
  ∀ s : State, (∃ t, step s = .next t) ↔ s.nextTurn.wellFormed s.params = true

/-- No host action reads a key: what any host action answers, and what the host then holds, does not depend
on the bytes of any key register (10_state.md R31). -/
def Obligations.KeysHaveNoReadPath : Prop :=
  ∀ (s : State) (st : KeyStore) (act : HostAction), (∀ k, st.valid k = s.keys.valid k) →
    hostAct act { s with keys := st } = mapNext (fun t => { t with keys := st }) (hostAct act s)

/-! ### Reset -/

/-- 70_reset_and_hazards.md R100: the values the spec gives for reset. -/
def Obligations.ResetLeavesTheStatedValues : Prop :=
  State.reset.rounds = 0 ∧ State.reset.busy = false ∧ State.reset.status.done = false ∧
  State.reset.status.err = false ∧ State.reset.status.ovr = false ∧
  State.reset.status.errcode = .none ∧ State.reset.status.backend = .notSelected ∧
  (∀ k, State.reset.keys.valid k = false) ∧ State.reset.ops.src = 0 ∧
  State.reset.ops.srcLen = 0 ∧ State.reset.ops.aux = 0 ∧ State.reset.ops.auxLen = 0 ∧
  State.reset.ops.dst = 0 ∧ State.reset.outLen = 0 ∧ State.reset.inflight = none ∧
  State.reset.statusWord = 0

/-- 70_reset_and_hazards.md R99, R100, R101: asserting reset, in any state, idle or with a command in flight,
puts every register at its reset value and leaves the block idle, and every byte of BUF is unspecified:
it reads as the free value of the new era, whatever it was (log 6). What is not the block's own state
stays (the model's choice, log 17). -/
def Obligations.ResetInputFromAnyState : Prop :=
  ∀ (s : State) (rest : List Turn), s.script = .reset :: rest →
    ∃ t, step s = .next t ∧ t.inflight = none ∧ t.busy = false ∧ t.outLen = 0 ∧
      (∀ k, t.keys.valid k = false) ∧ t.statusWord = 0 ∧
      (∀ off, off ≠ 0x00 → off ≠ 0x24 → t.readRegister off = 0) ∧
      t.buf.era = s.buf.era + 1 ∧ (∀ a, t.buf.read a = Config.bufPowerOn (s.buf.era + 1) a) ∧
      t.params = s.params ∧ t.capVec = s.capVec ∧ t.script = rest ∧ t.rdata = s.rdata ∧
      t.breach = Breach.none ∧ t.draws = s.draws

/-- The invariant holds right after reset. -/
def Obligations.ResetSatisfiesTheInvariant : Prop := State.reset.Inv

/-! ### Invariants and whole-machine rules -/

/-- Every step keeps the invariant, from every state that has it. -/
def Obligations.StepKeepsTheInvariant : Prop :=
  ∀ s t : State, s.Inv → step s = .next t → t.Inv

/-- 10_state.md R32: the latch is taken by the first universal-hash command that passes its checks, by the
level of CAP_VEC, and once taken it does not change until reset, whatever the turn. -/
def Obligations.BackendLatchIsTakenOnce : Prop :=
  (∀ s t : State, step s = .next t → s.status.backend ≠ .notSelected → s.nextTurn ≠ .reset →
    t.status.backend = s.status.backend) ∧
  (∀ (i : Instr) (s t : State), exec i s = .next t → s.status.backend = .notSelected →
    t.status.backend =
      if (i = .nhChunk ∨ i = .nhMsg ∨ i = .hashA) ∧ t.status.errcode = .none then
        (if s.capVec = true then .vector else .portable)
      else .notSelected)

/-- Only LDKEY writes a key register, and only its own; only reset clears a valid bit (10_state.md R31). -/
def Obligations.OnlyLdkeyWritesAKey : Prop :=
  ∀ (s t : State) (k : KeySel), step s = .next t → t.keys.get k ≠ s.keys.get k →
    s.nextTurn = .reset ∨
      (s.nextTurn = .engine ∧ (t.keys.get k).valid = true ∧
        ∃ r, s.inflight = some r ∧ decode r.word = .command (.ldkey k))

/-- 70_reset_and_hazards.md R106: a command in flight is completed (or abandoned by reset) after finitely
many turns, whatever the host does meanwhile, as long as its actions are well formed. No bound is
claimed. That the engine moves at the latest when the script is used up is the model's weak fairness
(log 1). -/
def Obligations.CommandInFlightIsCompletedEventually : Prop :=
  ∀ s : State, s.busy = true → (∀ turn ∈ s.script, turn.wellFormed s.params = true) →
    ∃ k t, core.run k s = .next t ∧ t.busy = false

/-- `wait` of 30_encoding.md R52: whatever number of polls sees BUSY = 1, the last read returns BUSY = 0, the
command is complete, and the script goes on. The number of polls is in the script (log 1). -/
def Obligations.WaitEndsWithBusyClear : Prop :=
  ∀ (s : State) (polls : Nat) (rest : List Turn), s.busy = true →
    s.script = Asm.wait s.params polls ++ rest →
    ∃ t, core.run (polls + 2) s = .next t ∧ t.script = rest ∧ t.busy = false ∧
      t.rdata.getLsbD 0 = false ∧ t.rdata = t.statusWord

/-- 60_exceptions.md R98: an idle block whose turns are used up (log 1) changes no state. -/
def Obligations.IdleBlockChangesNothing : Prop :=
  ∀ s : State, s.busy = false → s.script = [] → step s = .next s

/-! ### Equivalences -/

/-- 42_nh.md R70: no command's result depends on BACKEND or on CAP_VEC. Two states that differ in these only
give next states that differ in these only. -/
def Obligations.BackendNeverChangesAResult : Prop :=
  ∀ (i : Instr) (s s' : State), s.hideBackend = s'.hideBackend →
    mapNext State.hideBackend (exec i s) = mapNext State.hideBackend (exec i s')

/-- 20_memory.md R42: the result of a command depends only on its operands, the bytes of its input ranges,
the keys and CFG.ROUNDS (the last two through the record). Two states that agree on these, whatever else
they hold, end with the same error code, OUT_LEN and keys, and a success writes the same output bytes. -/
def Obligations.ResultDependsOnlyOnTheInputs : Prop :=
  ∀ (i : Instr) (s s' t t' : State) (r : Inflight), s.buf.wf → s'.buf.wf →
    s.inflight = some r → s'.inflight = some r → s.params = s'.params → s.keys = s'.keys →
    (∀ inp ∈ inputs i r.ops, ∀ a, inp.range.holds a = true → s.buf.read a = s'.buf.read a) →
    exec i s = .next t → exec i s' = .next t' →
    t.status.errcode = t'.status.errcode ∧ t.outLen = t'.outLen ∧ t.keys = t'.keys ∧
    (t.status.errcode = .none →
      ∀ a, (outRange i r.ops).holds a = true → t.buf.read a = t'.buf.read a)

/-- 42_nh.md R66, R70, R71: both paths give the value of R66 for every key and every chunk, and the four
lanes of the VECTOR path hold the four accumulators. -/
def Obligations.BothPathsComputeTheDigest : Prop :=
  ∀ (kn : Vector Byte 1072) (m : List Byte), m.length % 16 = 0 →
    nhPortable kn m = Spec.nhDigest kn.toList m ∧ nhVector kn m = Spec.nhDigest kn.toList m ∧
    (let h := vectorLanes (wordsLE kn.toList) (wordsLE m) { l0 := 0, l1 := 0, l2 := 0, l3 := 0 }
     h.l0.toNat = Spec.nhAccumulator kn.toList m 0 ∧ h.l1.toNat = Spec.nhAccumulator kn.toList m 1 ∧
     h.l2.toNat = Spec.nhAccumulator kn.toList m 2 ∧ h.l3.toNat = Spec.nhAccumulator kn.toList m 3)

/-- The bytes of a key that is not loaded are never observable: two states that differ in such bytes only
take steps that differ in such bytes only, or stop alike (70_reset_and_hazards.md R100, 93 U1). -/
def Obligations.UnloadedKeyBytesAreUnobservable : Prop :=
  ∀ s s' : State, s.hideUnloadedKeys = s'.hideUnloadedKeys →
    mapNext State.hideUnloadedKeys (step s) = mapNext State.hideUnloadedKeys (step s')

/-! ### The functions -/

/-- 43_combiner.md R74: the two-lane sum is the sum mod 2^128. -/
def Obligations.Add128IsTheSumMod2To128 : Prop :=
  ∀ a b : List Byte, a.length = 16 → b.length = 16 →
    add128 a b = bytesLE 16 ((leNat a + leNat b) % 2 ^ 128)

/-- 43_combiner.md R75: the two-lane difference is the difference mod 2^128. -/
def Obligations.Sub128IsTheDifferenceMod2To128 : Prop :=
  ∀ a b : List Byte, a.length = 16 → b.length = 16 →
    sub128 a b = bytesLE 16 ((2 ^ 128 + leNat a - leNat b) % 2 ^ 128)

/-- 43_combiner.md R76: the inverse law, both ways. -/
def Obligations.CombinersAreInverse : Prop :=
  ∀ x y : List Byte, x.length = 16 → y.length = 16 →
    sub128 (add128 x y) y = x ∧ add128 (sub128 x y) y = x

/-- 42_nh.md R68: the digests of the chunks, each zero-padded to a multiple of 16, whatever the backend;
an empty message gives none. -/
def Obligations.MessageIsHashedChunkByChunk : Prop :=
  ∀ (b : Backend) (kn : Vector Byte 1072) (l : List Byte),
    nhMessage b kn l = Spec.nhMsg kn.toList l ∧
    (nhMessage b kn l).length = 32 * ((l.length + 1023) / 1024) ∧ nhMessage b kn [] = []

/-- 42_nh.md R69: sixteen more zero bytes add, for each accumulator, the two products of the key words
alone; and there is a key and a chunk whose digest they change. -/
def Obligations.PaddingChangesTheDigest : Prop :=
  (∀ (kn : Vector Byte 1072) (m : List Byte) (i : Nat), m.length % 16 = 0 →
    nhAccumulator (wordsLE kn.toList) (wordsLE (m ++ zeros 16)) i =
      nhAccumulator (wordsLE kn.toList) (wordsLE m) i
        + (BitVec.ofNat 64
            (Spec.word kn.toList (m.length / 4 + 4 * i) * Spec.word kn.toList (m.length / 4 + 4 * i + 2))
          + BitVec.ofNat 64
            (Spec.word kn.toList (m.length / 4 + 4 * i + 1)
              * Spec.word kn.toList (m.length / 4 + 4 * i + 3)))) ∧
  (∃ (kn : Vector Byte 1072) (m : List Byte), m.length = 16 ∧
    nhPortable kn (m ++ zeros 16) ≠ nhPortable kn m)

/-- 41_stream.md R55 to R58: the nonce-extension function. -/
def Obligations.NonceExtensionFollowsItsRules : Prop :=
  ∀ (r : Nat) (key : Vector Byte 32) (n : Vector Byte 16),
    (hchacha r key n).toList = Spec.hchacha r key.toList n.toList

/-- 41_stream.md R60: the full nonce, its sub-nonce and its inner nonce, for every logical nonce of at most
23 bytes, with the two cases of the rule. -/
def Obligations.FullNonceIsPaddedWithOne : Prop :=
  ∀ nu : List Byte, nu.length ≤ 23 →
    (fullNonce nu).toList = nu ++ [0x01] ++ List.replicate (23 - nu.length) 0 ∧
    (subNonce (fullNonce nu)).toList = (fullNonce nu).toList.take 16 ∧
    (innerNonce (fullNonce nu)).toList = (fullNonce nu).toList.drop 16 ∧
    (nu.length < 16 → (0x01 : Byte) ∈ (subNonce (fullNonce nu)).toList ∧
      (innerNonce (fullNonce nu)).toList = List.replicate 8 0) ∧
    (16 ≤ nu.length → (subNonce (fullNonce nu)).toList = nu.take 16 ∧
      (0x01 : Byte) ∈ (innerNonce (fullNonce nu)).toList)

/-- 41_stream.md R65: the full nonces of the empty and of a 16-byte logical nonce are always different; and,
more, any two logical nonces of at most 23 bytes have different full nonces. -/
def Obligations.FullNoncesNeverCollide : Prop :=
  (subNonce (fullNonce [])).toList = 0x01 :: List.replicate 15 0 ∧
  (innerNonce (fullNonce [])).toList = List.replicate 8 0 ∧
  (∀ nu : List Byte, nu.length = 16 → (subNonce (fullNonce nu)).toList = nu ∧
    (innerNonce (fullNonce nu)).toList = 0x01 :: List.replicate 7 0 ∧
    fullNonce nu ≠ fullNonce []) ∧
  (∀ nu mu : List Byte, nu.length ≤ 23 → mu.length ≤ 23 → fullNonce nu = fullNonce mu → nu = mu)

/-- 41_stream.md R61: byte j of the result is byte j of the message XOR byte j mod 64 of the keystream block
with counter j / 64, under the extended key and the inner nonce; the last block is truncated. -/
def Obligations.StreamXorsBlockByBlock : Prop :=
  ∀ (r : Nat) (key : Vector Byte 32) (p nu : List Byte), nu.length ≤ 23 →
    xstream Config.kstream r key p nu = Spec.xstream r key.toList p nu

/-- 41_stream.md R64: the stream function is its own inverse, and two in-place XSTREAM commands with the same
operands restore every byte of BUF. -/
def Obligations.XstreamTwiceRestoresTheMessage : Prop :=
  (∀ (r : Nat) (key : Vector Byte 32) (p nu : List Byte),
    xstream Config.kstream r key (xstream Config.kstream r key p nu) nu = p) ∧
  ∀ (s t u : State) (r : Inflight), s.buf.wf → s.inflight = some r → r.ops.dst = r.ops.src →
    exec .xstream s = .next t → t.status.errcode = .none →
    exec .xstream { t with inflight := some r } = .next u →
    u.status.errcode = .none ∧ ∀ a, u.buf.read a = s.buf.read a

/-! ### A broken host duty -/

/-- 70_reset_and_hazards.md R105, the model's reading of a BUF write while BUSY = 1: at completion every byte
of the command's output range and every byte the host wrote reads as a free value, and every other byte
as the command left it; an illegal word has no output range and leaves the other bytes as they were. It
holds for every choice of the free values; how they are drawn is log 9. -/
def Obligations.BufWriteWhileBusyFreesTheOutput : Prop :=
  ∀ (s t : State) (r : Inflight), s.buf.wf → s.inflight = some r → s.breach.touched ≠ [] →
    s.nextTurn = .engine → step s = .next t →
    (∀ (i : Instr) (u : State), decode r.word = .command i → exec i s.popTurn = .next u →
      ∀ a, a < s.params.bufSize →
        t.buf.read a =
          if (outRange i r.ops).holds a = true ∨ a ∈ s.breach.touched then Config.breachByte s.draws a
          else u.buf.read a) ∧
    (∀ why, decode r.word = .illegal why →
      ∀ a, t.buf.read a =
        if a ∈ s.breach.touched then Config.breachByte s.draws a else s.buf.read a)

/-- The host's BUF write while BUSY = 1 is noted and changes no byte yet: the command reads BUF as it stood
at issue (20_memory.md R44; log 9). -/
def Obligations.BufWriteWhileBusyIsNoted : Prop :=
  ∀ (s : State) (a : Nat) (b : Byte) (rest : List Turn), s.busy = true → a < s.params.bufSize →
    s.script = .host (.bufWrite a b) :: rest →
    ∃ t, step s = .next t ∧ t.buf = s.buf ∧
      (∀ x, x ∈ t.breach.touched ↔ x = a ∨ x ∈ s.breach.touched) ∧
      t.breach.status = s.breach.status ∧
      t = { s with script := rest, breach := t.breach }

/-- 70_reset_and_hazards.md R105, the model's reading of a STATUS write while BUSY = 1 (log 10): DONE, ERR
and OVR take free values, and it changes no other bit of STATUS, no register and no byte of BUF; the
command in flight goes on. -/
def Obligations.StatusWriteWhileBusyTouchesThreeFlags : Prop :=
  ∀ (s : State) (v : Word) (rest : List Turn), s.busy = true →
    s.script = Asm.wr s.params .status v :: rest →
    ∃ t : State, step s = .next t ∧
      t = { s with
            script := rest
            status :=
              { s.status with
                done := Config.breachFlag s.draws 0
                err := Config.breachFlag s.draws 1
                ovr := Config.breachFlag s.draws 2 }
            breach := { s.breach with status := true }
            draws := s.draws + 1 } ∧
      t.statusWord &&& 0xFFFFFFF1 = s.statusWord &&& 0xFFFFFFF1

/-- 70_reset_and_hazards.md R105, the model's reading of a STATUS write while BUSY = 1, at the completion
(log 10): DONE, ERR and OVR are free values, whatever the command was and however it ended, and every
other part of the state is as the command left it (BUF too, unless the host also wrote BUF: log 9). An
illegal word leaves what 60_exceptions.md R88 says. -/
def Obligations.StatusWriteWhileBusyFreesTheFlags : Prop :=
  ∀ (s t u : State) (r : Inflight), s.inflight = some r → s.breach.status = true →
    s.nextTurn = .engine → step s = .next t →
    ((∃ i, decode r.word = .command i ∧ exec i s.popTurn = .next u) ∨
      ((∃ why, decode r.word = .illegal why) ∧ u = Spec.failed s.popTurn .illegalCmd)) →
    t = { u with
          status :=
            { u.status with
              done := Config.breachFlag s.draws 0
              err := Config.breachFlag s.draws 1
              ovr := Config.breachFlag s.draws 2 }
          buf := t.buf
          breach := Breach.none
          draws := s.draws + 1 } ∧
    (s.breach.touched = [] → t.buf = u.buf)

/-- 70_reset_and_hazards.md R105, the model's reading of a BUF read while BUSY = 1 (log 11): a byte of the
output range of the command in flight, or one the host has written since the issue, reads as a free
value, another one at the next such read; every other byte reads as BUF holds it. An illegal word has no
output range. Either way nothing changes but what the host holds. -/
def Obligations.BufReadWhileBusyIsFree : Prop :=
  ∀ (s : State) (r : Inflight) (a : Nat) (rest : List Turn), s.inflight = some r →
    a < s.params.bufSize → s.script = .host (.bufRead a) :: rest →
    (((∃ i, decode r.word = .command i ∧ (outRange i r.ops).holds a = true) ∨
        a ∈ s.breach.touched) →
      step s =
        .next { s with
          script := rest
          rdata := (Config.breachByte s.draws a).setWidth 32
          draws := s.draws + 1 }) ∧
    ((∀ i, decode r.word = .command i → (outRange i r.ops).holds a = false) →
      a ∉ s.breach.touched →
      step s = .next { s with script := rest, rdata := (s.buf.read a).setWidth 32 })
end

