-- ==== Sys2Proof/Laws/State.lean ====
section
/-! SUPPORT. One lemma per field per update of State, each true by rfl: no proof needs to unfold a record
update. -/

namespace Sys2Proof.Machine

section
variable (s : State)

@[simp] theorem State.issue_rounds (w : Word) : (s.issue w).rounds = s.rounds := rfl
@[simp] theorem State.issue_ops (w : Word) : (s.issue w).ops = s.ops := rfl
@[simp] theorem State.issue_status (w : Word) : (s.issue w).status = s.status := rfl
@[simp] theorem State.issue_outLen (w : Word) : (s.issue w).outLen = s.outLen := rfl
@[simp] theorem State.issue_keys (w : Word) : (s.issue w).keys = s.keys := rfl
@[simp] theorem State.issue_inflight (w : Word) : (s.issue w).inflight = some { word := w, ops := s.ops, rounds := s.rounds } := rfl
@[simp] theorem State.issue_buf (w : Word) : (s.issue w).buf = s.buf := rfl
@[simp] theorem State.issue_params (w : Word) : (s.issue w).params = s.params := rfl
@[simp] theorem State.issue_capVec (w : Word) : (s.issue w).capVec = s.capVec := rfl
@[simp] theorem State.issue_script (w : Word) : (s.issue w).script = s.script := rfl
@[simp] theorem State.issue_rdata (w : Word) : (s.issue w).rdata = s.rdata := rfl
@[simp] theorem State.issue_breach (w : Word) : (s.issue w).breach = Breach.none := rfl
@[simp] theorem State.issue_draws (w : Word) : (s.issue w).draws = s.draws := rfl

@[simp] theorem State.complete_rounds (n : Nat) : (s.complete n).rounds = s.rounds := rfl
@[simp] theorem State.complete_ops (n : Nat) : (s.complete n).ops = s.ops := rfl
@[simp] theorem State.complete_status (n : Nat) : (s.complete n).status = { s.status with done := true, errcode := .none } := rfl
@[simp] theorem State.complete_outLen (n : Nat) : (s.complete n).outLen = BitVec.ofNat 32 n := rfl
@[simp] theorem State.complete_keys (n : Nat) : (s.complete n).keys = s.keys := rfl
@[simp] theorem State.complete_inflight (n : Nat) : (s.complete n).inflight = none := rfl
@[simp] theorem State.complete_buf (n : Nat) : (s.complete n).buf = s.buf := rfl
@[simp] theorem State.complete_params (n : Nat) : (s.complete n).params = s.params := rfl
@[simp] theorem State.complete_capVec (n : Nat) : (s.complete n).capVec = s.capVec := rfl
@[simp] theorem State.complete_script (n : Nat) : (s.complete n).script = s.script := rfl
@[simp] theorem State.complete_rdata (n : Nat) : (s.complete n).rdata = s.rdata := rfl
@[simp] theorem State.complete_breach (n : Nat) : (s.complete n).breach = s.breach := rfl
@[simp] theorem State.complete_draws (n : Nat) : (s.complete n).draws = s.draws := rfl

@[simp] theorem State.raise_rounds (e : ErrCode) : (s.raise e).rounds = s.rounds := rfl
@[simp] theorem State.raise_ops (e : ErrCode) : (s.raise e).ops = s.ops := rfl
@[simp] theorem State.raise_status (e : ErrCode) : (s.raise e).status = { s.status with done := true, err := true, errcode := e } := rfl
@[simp] theorem State.raise_outLen (e : ErrCode) : (s.raise e).outLen = 0 := rfl
@[simp] theorem State.raise_keys (e : ErrCode) : (s.raise e).keys = s.keys := rfl
@[simp] theorem State.raise_inflight (e : ErrCode) : (s.raise e).inflight = none := rfl
@[simp] theorem State.raise_buf (e : ErrCode) : (s.raise e).buf = s.buf := rfl
@[simp] theorem State.raise_params (e : ErrCode) : (s.raise e).params = s.params := rfl
@[simp] theorem State.raise_capVec (e : ErrCode) : (s.raise e).capVec = s.capVec := rfl
@[simp] theorem State.raise_script (e : ErrCode) : (s.raise e).script = s.script := rfl
@[simp] theorem State.raise_rdata (e : ErrCode) : (s.raise e).rdata = s.rdata := rfl
@[simp] theorem State.raise_breach (e : ErrCode) : (s.raise e).breach = s.breach := rfl
@[simp] theorem State.raise_draws (e : ErrCode) : (s.raise e).draws = s.draws := rfl

@[simp] theorem State.acknowledge_rounds (v : Word) : (s.acknowledge v).rounds = s.rounds := rfl
@[simp] theorem State.acknowledge_ops (v : Word) : (s.acknowledge v).ops = s.ops := rfl
@[simp] theorem State.acknowledge_status (v : Word) : (s.acknowledge v).status = 
    { s.status with
      done := s.status.done && !v.getLsbD 1
      err := s.status.err && !v.getLsbD 2
      ovr := s.status.ovr && !v.getLsbD 3 } := rfl
@[simp] theorem State.acknowledge_outLen (v : Word) : (s.acknowledge v).outLen = s.outLen := rfl
@[simp] theorem State.acknowledge_keys (v : Word) : (s.acknowledge v).keys = s.keys := rfl
@[simp] theorem State.acknowledge_inflight (v : Word) : (s.acknowledge v).inflight = s.inflight := rfl
@[simp] theorem State.acknowledge_buf (v : Word) : (s.acknowledge v).buf = s.buf := rfl
@[simp] theorem State.acknowledge_params (v : Word) : (s.acknowledge v).params = s.params := rfl
@[simp] theorem State.acknowledge_capVec (v : Word) : (s.acknowledge v).capVec = s.capVec := rfl
@[simp] theorem State.acknowledge_script (v : Word) : (s.acknowledge v).script = s.script := rfl
@[simp] theorem State.acknowledge_rdata (v : Word) : (s.acknowledge v).rdata = s.rdata := rfl
@[simp] theorem State.acknowledge_breach (v : Word) : (s.acknowledge v).breach = s.breach := rfl
@[simp] theorem State.acknowledge_draws (v : Word) : (s.acknowledge v).draws = s.draws := rfl

@[simp] theorem State.latchBackend_rounds : (s.latchBackend).rounds = s.rounds := rfl
@[simp] theorem State.latchBackend_ops : (s.latchBackend).ops = s.ops := rfl
@[simp] theorem State.latchBackend_outLen : (s.latchBackend).outLen = s.outLen := rfl
@[simp] theorem State.latchBackend_keys : (s.latchBackend).keys = s.keys := rfl
@[simp] theorem State.latchBackend_inflight : (s.latchBackend).inflight = s.inflight := rfl
@[simp] theorem State.latchBackend_buf : (s.latchBackend).buf = s.buf := rfl
@[simp] theorem State.latchBackend_params : (s.latchBackend).params = s.params := rfl
@[simp] theorem State.latchBackend_capVec : (s.latchBackend).capVec = s.capVec := rfl
@[simp] theorem State.latchBackend_script : (s.latchBackend).script = s.script := rfl
@[simp] theorem State.latchBackend_rdata : (s.latchBackend).rdata = s.rdata := rfl
@[simp] theorem State.latchBackend_breach : (s.latchBackend).breach = s.breach := rfl
@[simp] theorem State.latchBackend_draws : (s.latchBackend).draws = s.draws := rfl

@[simp] theorem State.finish_rounds (out : Range) (bs : List Byte) : (s.finish out bs).rounds = s.rounds := rfl
@[simp] theorem State.finish_ops (out : Range) (bs : List Byte) : (s.finish out bs).ops = s.ops := rfl
@[simp] theorem State.finish_status (out : Range) (bs : List Byte) : (s.finish out bs).status = { s.status with done := true, errcode := .none } := rfl
@[simp] theorem State.finish_outLen (out : Range) (bs : List Byte) : (s.finish out bs).outLen = BitVec.ofNat 32 out.len := rfl
@[simp] theorem State.finish_keys (out : Range) (bs : List Byte) : (s.finish out bs).keys = s.keys := rfl
@[simp] theorem State.finish_inflight (out : Range) (bs : List Byte) : (s.finish out bs).inflight = none := rfl
@[simp] theorem State.finish_buf (out : Range) (bs : List Byte) : (s.finish out bs).buf = s.buf.writeBytes out.start bs := rfl
@[simp] theorem State.finish_params (out : Range) (bs : List Byte) : (s.finish out bs).params = s.params := rfl
@[simp] theorem State.finish_capVec (out : Range) (bs : List Byte) : (s.finish out bs).capVec = s.capVec := rfl
@[simp] theorem State.finish_script (out : Range) (bs : List Byte) : (s.finish out bs).script = s.script := rfl
@[simp] theorem State.finish_rdata (out : Range) (bs : List Byte) : (s.finish out bs).rdata = s.rdata := rfl
@[simp] theorem State.finish_breach (out : Range) (bs : List Byte) : (s.finish out bs).breach = s.breach := rfl
@[simp] theorem State.finish_draws (out : Range) (bs : List Byte) : (s.finish out bs).draws = s.draws := rfl

@[simp] theorem State.setOvr_rounds : (s.setOvr).rounds = s.rounds := rfl
@[simp] theorem State.setOvr_ops : (s.setOvr).ops = s.ops := rfl
@[simp] theorem State.setOvr_status : (s.setOvr).status = { s.status with ovr := true } := rfl
@[simp] theorem State.setOvr_outLen : (s.setOvr).outLen = s.outLen := rfl
@[simp] theorem State.setOvr_keys : (s.setOvr).keys = s.keys := rfl
@[simp] theorem State.setOvr_inflight : (s.setOvr).inflight = s.inflight := rfl
@[simp] theorem State.setOvr_buf : (s.setOvr).buf = s.buf := rfl
@[simp] theorem State.setOvr_params : (s.setOvr).params = s.params := rfl
@[simp] theorem State.setOvr_capVec : (s.setOvr).capVec = s.capVec := rfl
@[simp] theorem State.setOvr_script : (s.setOvr).script = s.script := rfl
@[simp] theorem State.setOvr_rdata : (s.setOvr).rdata = s.rdata := rfl
@[simp] theorem State.setOvr_breach : (s.setOvr).breach = s.breach := rfl
@[simp] theorem State.setOvr_draws : (s.setOvr).draws = s.draws := rfl

@[simp] theorem State.latchBackend_status_done : s.latchBackend.status.done = s.status.done := rfl
@[simp] theorem State.latchBackend_status_err : s.latchBackend.status.err = s.status.err := rfl
@[simp] theorem State.latchBackend_status_ovr : s.latchBackend.status.ovr = s.status.ovr := rfl
@[simp] theorem State.latchBackend_status_errcode : s.latchBackend.status.errcode = s.status.errcode := rfl

@[simp] theorem State.latchBackend_status_backend : s.latchBackend.status.backend = s.backendAfterHash := by
  unfold State.latchBackend State.backendAfterHash
  cases s.status.backend <;> cases s.capVec <;> rfl

@[simp] theorem State.resetInput_rounds : s.resetInput.rounds = 0 := rfl
@[simp] theorem State.resetInput_ops : s.resetInput.ops = Operands.zero := rfl
@[simp] theorem State.resetInput_status : s.resetInput.status = StatusBits.reset := rfl
@[simp] theorem State.resetInput_outLen : s.resetInput.outLen = 0 := rfl
@[simp] theorem State.resetInput_keys : s.resetInput.keys = KeyStore.reset := rfl
@[simp] theorem State.resetInput_inflight : s.resetInput.inflight = none := rfl
@[simp] theorem State.resetInput_buf : s.resetInput.buf = { cells := [], era := s.buf.era + 1 } := rfl
@[simp] theorem State.resetInput_params : s.resetInput.params = s.params := rfl
@[simp] theorem State.resetInput_capVec : s.resetInput.capVec = s.capVec := rfl
@[simp] theorem State.resetInput_script : s.resetInput.script = s.script := rfl
@[simp] theorem State.resetInput_rdata : s.resetInput.rdata = s.rdata := rfl
@[simp] theorem State.resetInput_breach : s.resetInput.breach = Breach.none := rfl
@[simp] theorem State.resetInput_draws : s.resetInput.draws = s.draws := rfl

@[simp] theorem State.memRead_issue (w : Word) (a n : Nat) : (s.issue w).memRead a n = s.memRead a n := rfl
@[simp] theorem State.memRead_latchBackend (a n : Nat) : s.latchBackend.memRead a n = s.memRead a n := rfl
@[simp] theorem State.memReadVec_toList (a n : Nat) : (s.memReadVec a n).toList = s.memRead a n := rfl

@[simp] theorem State.memRead_length (a n : Nat) : (s.memRead a n).length = n := by simp [State.memRead]

end

@[simp] theorem KeyStore.get_put (st : KeyStore) (k : KeySel) (v : KeyReg k.size) : (st.put k v).get k = v := by
  cases k <;> rfl

theorem KeyStore.get_put_ne (st : KeyStore) (k j : KeySel) (v : KeyReg k.size) (h : j ≠ k) :
    (st.put k v).get j = st.get j := by
  cases k <;> cases j <;> first | rfl | exact absurd rfl h

@[simp] theorem KeyStore.get_load (st : KeyStore) (k : KeySel) (v : Vector Byte k.size) :
    (st.load k v).get k = { bytes := v, valid := true } := KeyStore.get_put st k _

theorem KeyStore.get_load_ne (st : KeyStore) (k j : KeySel) (v : Vector Byte k.size) (h : j ≠ k) :
    (st.load k v).get j = st.get j := KeyStore.get_put_ne st k j _ h

/-- Loading a key clears no valid bit. -/
theorem KeyStore.valid_load (st : KeyStore) (k j : KeySel) (v : Vector Byte k.size)
    (h : st.valid j = true) : (st.load k v).valid j = true := by
  cases k <;> cases j <;> first | exact h | rfl

end Sys2Proof.Machine
end

