-- ==== Sys2Proof/Laws/Bytes.lean ====
section
/-! SUPPORT. Byte order: bytes and values determine each other (00_scope.md R12). -/

namespace Sys2Proof.Machine

@[simp] theorem bytesLE_length (n v : Nat) : (bytesLE n v).length = n := by
  induction n generalizing v with
  | zero => rfl
  | succ n ih => simp [bytesLE, ih]

theorem leNat_lt (bs : List Byte) : leNat bs < 256 ^ bs.length := by
  induction bs with
  | nil => simp [leNat]
  | cons b bs ih =>
    have hb : b.toNat < 256 := b.isLt
    simp only [leNat, List.length_cons, Nat.pow_succ]
    omega

/-- Reading the bytes of a value gives the value, cut to the width. -/
theorem leNat_bytesLE (n v : Nat) : leNat (bytesLE n v) = v % 256 ^ n := by
  induction n generalizing v with
  | zero => simp [bytesLE, leNat, Nat.mod_one]
  | succ n ih =>
    have hp : 256 ^ (n + 1) = 256 * 256 ^ n := by rw [Nat.pow_succ, Nat.mul_comm]
    rw [bytesLE, leNat, ih, hp, Nat.mod_mul, BitVec.toNat_ofNat]

/-- Writing out the value of a byte string gives the byte string. -/
theorem bytesLE_leNat (bs : List Byte) : bytesLE bs.length (leNat bs) = bs := by
  induction bs with
  | nil => rfl
  | cons b bs ih =>
    have hb : b.toNat < 256 := b.isLt
    have h1 : (b.toNat + 256 * leNat bs) / 256 = leNat bs := by omega
    have h2 : BitVec.ofNat 8 (b.toNat + 256 * leNat bs) = b := by
      apply BitVec.eq_of_toNat_eq
      rw [BitVec.toNat_ofNat]; omega
    simp only [List.length_cons, leNat, bytesLE, h1, h2, ih]

theorem leNat_append (xs ys : List Byte) : leNat (xs ++ ys) = leNat xs + 256 ^ xs.length * leNat ys := by
  induction xs with
  | nil => simp [leNat]
  | cons b bs ih => simp only [List.cons_append, leNat, ih, List.length_cons, Nat.pow_succ]; ring

/-- Byte strings of one length are told apart by their values. -/
theorem leNat_inj (xs ys : List Byte) (hl : xs.length = ys.length) (h : leNat xs = leNat ys) : xs = ys := by
  rw [← bytesLE_leNat xs, ← bytesLE_leNat ys, hl, h]

@[simp] theorem slice_length (bs : List Byte) (a n : Nat) : (slice bs a n).length = min n (bs.length - a) := by
  simp [slice]

@[simp] theorem zeros_length (n : Nat) : (zeros n).length = n := by simp [zeros]

theorem leNat_zeros (n : Nat) : leNat (zeros n) = 0 := by
  induction n with
  | zero => rfl
  | succ n ih => simpa [zeros, List.replicate_succ, leNat] using ih

@[simp] theorem add128_length (a b : List Byte) : (add128 a b).length = 16 := by
  simp [add128, bytesLE64]

@[simp] theorem sub128_length (a b : List Byte) : (sub128 a b).length = 16 := by
  simp [sub128, bytesLE64]

@[simp] theorem nhPortable_length (kn : Vector Byte 1072) (m : List Byte) : (nhPortable kn m).length = 32 := by
  simp [nhPortable, bytesLE64]

@[simp] theorem nhVector_length (kn : Vector Byte 1072) (m : List Byte) : (nhVector kn m).length = 32 := by
  simp [nhVector, bytesLE64]

@[simp] theorem nh_length (b : Backend) (kn : Vector Byte 1072) (m : List Byte) : (nh b kn m).length = 32 := by
  cases b <;> simp [nh]

@[simp] theorem nhMessage_length (b : Backend) (kn : Vector Byte 1072) (l : List Byte) :
    (nhMessage b kn l).length = 32 * chunkCount l.length := by
  simp [nhMessage, List.length_flatMap, Nat.mul_comm]

@[simp] theorem keystream_length (ksf : KstreamFn) (r : Nat) (key : Vector Byte 32) (nonce : Vector Byte 8)
    (nb : Nat) : (keystream ksf r key nonce nb).length = 64 * nb := by
  simp [keystream, List.length_flatMap, Nat.mul_comm]

@[simp] theorem xstream_length (ksf : KstreamFn) (r : Nat) (key : Vector Byte 32) (p nu : List Byte) :
    (xstream ksf r key p nu).length = p.length := by
  simp only [xstream, List.length_zipWith, keystream_length, ceilDiv]
  omega

@[simp] theorem hashA_length (mac : MacFn) (b : Backend) (st : KeyStore) (t l : List Byte) :
    (hashA mac b st t l).length = 16 := by
  simp [hashA]

end Sys2Proof.Machine
end

