-- ==== Sys2Proof/Laws/Memory.lean ====
section
/-! SUPPORT. The laws of BUF: read after write, what a write leaves alone, and that every operation keeps
the canonical form and stays inside BUF. -/

namespace Sys2Proof.Machine

theorem cellsGet_cellsSet (l : List Host.Cell) (a x : Nat) (b : Byte) (hl : l.Pairwise fun c d => c.1 < d.1) :
    cellsGet (cellsSet l a b) x = if x = a then some b else cellsGet l x := by
  induction l with
  | nil => simp only [cellsSet, cellsGet, eq_comm]
  | cons c rest ih =>
    obtain ⟨n, v⟩ := c
    have ih := ih hl.of_cons
    simp only [cellsSet]
    split
    · by_cases h : x = a
      · simp [cellsGet, h]
      · simp [cellsGet, h, Ne.symm h]
    · split
      · next h1 h2 =>
        subst h2
        by_cases h : x = a
        · simp [cellsGet, h]
        · simp [cellsGet, h, Ne.symm h]
      · next h1 h2 =>
        simp only [cellsGet, ih]
        by_cases hn : n = x
        · have hx : x ≠ a := by omega
          simp [hn, hx]
        · simp [hn]

theorem mem_cellsSet (l : List Host.Cell) (a : Nat) (b : Byte) (c : Host.Cell) (h : c ∈ cellsSet l a b) :
    c = (a, b) ∨ c ∈ l := by
  induction l with
  | nil => simpa [cellsSet] using h
  | cons d rest ih =>
    obtain ⟨n, v⟩ := d
    simp only [cellsSet] at h
    split at h
    · simpa using h
    · split at h
      · rcases List.mem_cons.mp h with h | h
        · exact .inl h
        · exact .inr (List.mem_cons_of_mem _ h)
      · rcases List.mem_cons.mp h with h | h
        · exact .inr (by simp [h])
        · exact (ih h).imp id (List.mem_cons_of_mem _)

theorem cellsSet_rising (l : List Host.Cell) (a : Nat) (b : Byte) (h : l.Pairwise fun c d => c.1 < d.1) :
    (cellsSet l a b).Pairwise fun c d => c.1 < d.1 := by
  induction l with
  | nil => simp [cellsSet]
  | cons d rest ih =>
    obtain ⟨n, v⟩ := d
    have hr := List.pairwise_cons.mp h
    simp only [cellsSet]
    split
    · next h1 =>
      refine List.pairwise_cons.mpr ⟨fun c hc => ?_, h⟩
      rcases List.mem_cons.mp hc with hc | hc
      · simpa [hc] using h1
      · exact Nat.lt_trans h1 (hr.1 c hc)
    · split
      · next h1 h2 =>
        subst h2
        exact List.pairwise_cons.mpr ⟨hr.1, hr.2⟩
      · next h1 h2 =>
        refine List.pairwise_cons.mpr ⟨fun c hc => ?_, ih hr.2⟩
        rcases mem_cellsSet rest a b c hc with hc | hc
        · simp only [hc]; omega
        · exact hr.1 c hc

/-- BUF right after reset is in canonical form: it lists nothing. -/
theorem State.reset_buf_wf : State.reset.buf.wf := List.Pairwise.nil

/-- Writing a byte keeps the canonical form. -/
theorem Buf.write_wf (m : Buf) (a : Nat) (b : Byte) (h : m.wf) : (m.write a b).wf :=
  cellsSet_rising m.cells a b h

/-- Read after write of one byte, at the same place and at any other. -/
theorem Buf.read_write (m : Buf) (a x : Nat) (b : Byte) (h : m.wf) :
    (m.write a b).read x = if x = a then b else m.read x := by
  simp only [Buf.read, Buf.write, cellsGet_cellsSet _ _ _ _ h]
  by_cases hx : x = a <;> simp [hx]

@[simp] theorem Buf.write_era (m : Buf) (a : Nat) (b : Byte) : (m.write a b).era = m.era := rfl

@[simp] theorem Buf.writeBytes_nil (m : Buf) (a : Nat) : m.writeBytes a [] = m := rfl

@[simp] theorem Buf.writeBytes_cons (m : Buf) (a : Nat) (b : Byte) (bs : List Byte) :
    m.writeBytes a (b :: bs) = (m.write a b).writeBytes (a + 1) bs := rfl

/-- Writing a byte string keeps the canonical form. -/
theorem Buf.writeBytes_wf (m : Buf) (a : Nat) (bs : List Byte) (h : m.wf) : (m.writeBytes a bs).wf := by
  induction bs generalizing m a with
  | nil => exact h
  | cons b bs ih => exact ih _ _ (m.write_wf a b h)

@[simp] theorem Buf.writeBytes_era (m : Buf) (a : Nat) (bs : List Byte) : (m.writeBytes a bs).era = m.era := by
  induction bs generalizing m a with
  | nil => rfl
  | cons b bs ih => simp [ih]

/-- A write leaves every byte outside the written range alone. -/
theorem Buf.read_writeBytes_outside (m : Buf) (a x : Nat) (bs : List Byte) (h : m.wf)
    (hx : x < a ∨ a + bs.length ≤ x) : (m.writeBytes a bs).read x = m.read x := by
  induction bs generalizing m a with
  | nil => rfl
  | cons b bs ih =>
    simp only [List.length_cons] at hx
    rw [Buf.writeBytes_cons, ih _ _ (m.write_wf a b h) (by omega), m.read_write a x b h,
      if_neg (by omega)]

/-- A write puts byte `i` of the string at address `a + i`. -/
theorem Buf.read_writeBytes_inside (m : Buf) (a i : Nat) (bs : List Byte) (h : m.wf)
    (hi : i < bs.length) : (m.writeBytes a bs).read (a + i) = bs[i] := by
  induction bs generalizing m a i with
  | nil => simp at hi
  | cons b bs ih =>
    cases i with
    | zero =>
      rw [Buf.writeBytes_cons, Buf.read_writeBytes_outside _ _ _ _ (m.write_wf a b h) (by omega),
        m.read_write a _ b h]
      simp
    | succ i =>
      have := ih (m.write a b) (a + 1) i (m.write_wf a b h) (by simpa using hi)
      simpa [Nat.add_assoc, Nat.add_comm 1 i] using this

/-- Every cell after a write was there before or lies in the written range. -/
theorem Buf.mem_writeBytes (m : Buf) (a : Nat) (bs : List Byte) (c : Host.Cell)
    (h : c ∈ (m.writeBytes a bs).cells) : c ∈ m.cells ∨ (a ≤ c.1 ∧ c.1 < a + bs.length) := by
  induction bs generalizing m a with
  | nil => exact .inl h
  | cons b bs ih =>
    rcases ih _ _ h with h | h
    · rcases mem_cellsSet _ _ _ _ h with h | h
      · exact .inr (by simp [h])
      · exact .inl h
    · exact .inr (by simp only [List.length_cons]; omega)

/-- Freeing a list of addresses keeps the canonical form. -/
theorem Buf.free_wf (m : Buf) (n : Nat) (l : List Nat) (h : m.wf) : (m.free n l).wf := by
  induction l generalizing m with
  | nil => exact h
  | cons a l ih => exact ih _ (m.write_wf a _ h)

/-- A freed byte reads as the free byte of its draw; every other byte reads as before. -/
theorem Buf.read_free (m : Buf) (n x : Nat) (l : List Nat) (h : m.wf) :
    (m.free n l).read x = if x ∈ l then Config.breachByte n x else m.read x := by
  induction l generalizing m with
  | nil => simp [Buf.free]
  | cons a l ih =>
    rw [Buf.free, ih _ (m.write_wf a _ h), m.read_write a x _ h]
    by_cases hl : x ∈ l
    · simp [hl]
    · by_cases hx : x = a <;> simp [hl, hx]

theorem Buf.mem_free (m : Buf) (n : Nat) (l : List Nat) (c : Host.Cell) (h : c ∈ (m.free n l).cells) :
    c ∈ m.cells ∨ c.1 ∈ l := by
  induction l generalizing m with
  | nil => exact .inl h
  | cons a l ih =>
    rcases ih _ h with h | h
    · rcases mem_cellsSet _ _ _ _ h with h | h
      · exact .inr (by simp [h])
      · exact .inl h
    · exact .inr (List.mem_cons_of_mem _ h)

/-- The addresses of a range that exist in BUF. -/
theorem Range.mem_addressesIn (r : Range) (p : Params) (a : Nat) :
    a ∈ r.addressesIn p ↔ r.holds a = true ∧ a < p.bufSize := by
  simp only [Range.addressesIn, Range.holds, List.mem_map, List.mem_range, Bool.and_eq_true,
    decide_eq_true_eq]
  constructor
  · rintro ⟨i, hi, rfl⟩; omega
  · rintro ⟨⟨h1, h2⟩, h3⟩; exact ⟨a - r.start, by omega, by omega⟩

theorem State.mem_memRead (s : State) (a n i : Nat) (h : i < n) :
    (s.memRead a n)[i]'(by simpa using h) = s.buf.read (a + i) := by simp [State.memRead]

end Sys2Proof.Machine
end

