-- ==== Sys2Proof/Laws/Exec.lean ====
section
/-! SUPPORT. What a command can do, said once: every meaning is its checks followed by its effect; an
error changes STATUS and OUT_LEN only; a success writes its output range, and the key register or the
backend latch where its rule says so. -/

namespace Sys2Proof.Machine

/-- Everything `runCommand` can answer with a next state. -/
theorem runCommand_next {checks : State → Inflight → List Check} {effect : State → Inflight → State}
    {s t : State} (h : runCommand checks effect s = .next t) :
    ∃ r, s.inflight = some r ∧
      ((∃ e, firstError (checks s r) = some e ∧ t = s.raise e) ∨
        (firstError (checks s r) = none ∧ t = effect s r)) := by
  unfold runCommand at h
  split at h
  · cases h
  · next r hr =>
    refine ⟨r, hr, ?_⟩
    split at h
    · next e he => cases h; exact .inl ⟨e, he, rfl⟩
    · next he => cases h; exact .inr ⟨he, rfl⟩

/-- A command whose checks pass has its effect. -/
theorem runCommand_effect {checks : State → Inflight → List Check} {effect : State → Inflight → State}
    {s : State} {r : Inflight} (hr : s.inflight = some r) (h : firstError (checks s r) = none) :
    runCommand checks effect s = .next (effect s r) := by
  simp [runCommand, hr, h]

/-- A command with a failing check raises the first error. -/
theorem runCommand_error {checks : State → Inflight → List Check} {effect : State → Inflight → State}
    {s : State} {r : Inflight} {e : ErrCode} (hr : s.inflight = some r)
    (h : firstError (checks s r) = some e) : runCommand checks effect s = .next (s.raise e) := by
  simp [runCommand, hr, h]

/-- The effect of each command, once its checks have passed. -/
def commandEffect : Instr → State → Inflight → State
  | .ldkey k => loadKey k
  | .hchacha => hchachaEffect
  | .xstream => xstreamEffect Config.kstream
  | .nhChunk => nhChunkEffect
  | .nhMsg => nhMsgEffect
  | .hashA => hashAEffect Config.mac
  | .add128 => add128Effect
  | .sub128 => sub128Effect

/-- Every meaning is the shared frame around its effect. -/
theorem exec_eq_runCommand (i : Instr) (s : State) :
    exec i s = runCommand (commandChecks i) (commandEffect i) s := by
  cases i <;> rfl

theorem firstError_none {checks : List Check} (h : firstError checks = none) :
    ∀ c ∈ checks, c.1 = false := by
  induction checks with
  | nil => simp
  | cons c rest ih =>
    obtain ⟨b, e⟩ := c
    cases b
    · simpa using ih (by simpa [firstError] using h)
    · simp [firstError] at h

theorem firstError_some {checks : List Check} {e : ErrCode} (h : firstError checks = some e) :
    ∃ c ∈ checks, c.1 = true ∧ c.2 = e := by
  induction checks with
  | nil => simp [firstError] at h
  | cons c rest ih =>
    obtain ⟨b, e'⟩ := c
    cases b
    · obtain ⟨c, hc, h⟩ := ih (by simpa [firstError] using h)
      exact ⟨c, List.mem_cons_of_mem _ hc, h⟩
    · exact ⟨_, List.mem_cons_self, rfl, by simpa [firstError] using h⟩

/-- No check of a legal word reports "no error". -/
theorem commandChecks_error_ne_none {i : Instr} {s : State} {r : Inflight} {e : ErrCode}
    (h : firstError (commandChecks i s r) = some e) : e ≠ .none := by
  obtain ⟨c, hc, -, rfl⟩ := firstError_some h
  simp only [commandChecks, List.mem_cons, List.not_mem_nil, or_false] at hc
  rcases hc with rfl | rfl | rfl | rfl | rfl | rfl <;> simp

/-- The state in which a command computes its output bytes: the latch goes first (60_exceptions.md R84). -/
def beforeOutput : Instr → State → State
  | .nhChunk, s | .nhMsg, s | .hashA, s => s.latchBackend
  | .ldkey _, s | .hchacha, s | .xstream, s | .add128, s | .sub128, s => s

/-- The bytes a command writes to its output range. -/
def outputBytes (i : Instr) (s : State) (r : Inflight) : List Byte :=
  match i with
  | .ldkey _ => []
  | .hchacha => (hchacha r.rounds.toNat s.keys.ks.bytes (s.memReadVec r.ops.aux.toNat 16)).toList
  | .xstream =>
    xstream Config.kstream r.rounds.toNat s.keys.ks.bytes
      (s.memRead r.ops.src.toNat r.ops.srcLen.toNat) (s.memRead r.ops.aux.toNat r.ops.auxLen.toNat)
  | .nhChunk => nh s.backendAfterHash s.keys.kn.bytes (s.memRead r.ops.src.toNat r.ops.srcLen.toNat)
  | .nhMsg =>
    nhMessage s.backendAfterHash s.keys.kn.bytes (s.memRead r.ops.src.toNat r.ops.srcLen.toNat)
  | .hashA =>
    hashA Config.mac s.backendAfterHash s.keys (s.memRead r.ops.aux.toNat r.ops.auxLen.toNat)
      (s.memRead r.ops.src.toNat r.ops.srcLen.toNat)
  | .add128 => add128 (s.memRead r.ops.src.toNat 16) (s.memRead r.ops.aux.toNat 16)
  | .sub128 => sub128 (s.memRead r.ops.src.toNat 16) (s.memRead r.ops.aux.toNat 16)

@[simp] theorem beforeOutput_buf (i : Instr) (s : State) : (beforeOutput i s).buf = s.buf := by
  cases i <;> rfl

/-- A storing command writes its output bytes at its output range and completes. -/
theorem commandEffect_storing (i : Instr) (hi : ∀ k, i ≠ .ldkey k) (s : State) (r : Inflight) :
    commandEffect i s r = (beforeOutput i s).finish (outRange i r.ops) (outputBytes i s r) := by
  cases i with
  | ldkey k => exact absurd rfl (hi k)
  | _ =>
    simp [commandEffect, hchachaEffect, xstreamEffect, nhChunkEffect, nhMsgEffect, hashAEffect,
      add128Effect, sub128Effect, beforeOutput, outputBytes]

/-- A command writes exactly as many bytes as its output range is long. -/
theorem outputBytes_length (i : Instr) (s : State) (r : Inflight) :
    (outputBytes i s r).length = (outRange i r.ops).len := by
  cases i <;> simp [outputBytes, outRange, Operands.dstRange]

/-- MemRead reads BUF and nothing else. -/
theorem State.memRead_congr {s s' : State} (h : s.buf = s'.buf) (a n : Nat) :
    s.memRead a n = s'.memRead a n := by
  simp only [State.memRead, h]

/-- MemRead as a vector reads BUF and nothing else. -/
theorem State.memReadVec_congr {s s' : State} (h : s.buf = s'.buf) (a n : Nat) :
    s.memReadVec a n = s'.memReadVec a n := by
  simp only [State.memReadVec, State.memRead_congr h]

/-- The bytes a command writes come from the in-flight record, BUF, the keys and the backend only. -/
theorem outputBytes_congr {s s' : State} (i : Instr) (r : Inflight) (hb : s.buf = s'.buf)
    (hk : s.keys = s'.keys) (hl : s.backendAfterHash = s'.backendAfterHash) :
    outputBytes i s r = outputBytes i s' r := by
  cases i <;>
    simp only [outputBytes, State.memRead_congr hb, State.memReadVec_congr hb, hk, hl]

/-- What a command changes in BUF: its output range takes its output bytes. -/
theorem commandEffect_buf (i : Instr) (s : State) (r : Inflight) :
    (commandEffect i s r).buf = s.buf.writeBytes (outRange i r.ops).start (outputBytes i s r) := by
  cases i with
  | ldkey k => rfl
  | _ => rw [commandEffect_storing _ (by simp), State.finish_buf, beforeOutput_buf]

/-- What no command changes: CFG, the operand registers, and everything outside the block. -/
theorem commandEffect_frame (i : Instr) (s : State) (r : Inflight) :
    (commandEffect i s r).rounds = s.rounds ∧ (commandEffect i s r).ops = s.ops ∧
      (commandEffect i s r).params = s.params ∧ (commandEffect i s r).capVec = s.capVec ∧
      (commandEffect i s r).script = s.script ∧ (commandEffect i s r).rdata = s.rdata ∧
      (commandEffect i s r).breach = s.breach ∧ (commandEffect i s r).draws = s.draws := by
  cases i with
  | ldkey k => simp [commandEffect, loadKey]
  | _ =>
    rw [commandEffect_storing _ (by simp)]
    simp [beforeOutput]

/-- How a successful command leaves STATUS and OUT_LEN (60_exceptions.md R87). -/
theorem commandEffect_completes (i : Instr) (s : State) (r : Inflight) :
    (commandEffect i s r).inflight = none ∧ (commandEffect i s r).status.done = true ∧
      (commandEffect i s r).status.err = s.status.err ∧
      (commandEffect i s r).status.ovr = s.status.ovr ∧
      (commandEffect i s r).status.errcode = .none ∧
      (commandEffect i s r).outLen = BitVec.ofNat 32 (outRange i r.ops).len := by
  cases i with
  | ldkey k => simp [commandEffect, loadKey, outRange]
  | _ =>
    rw [commandEffect_storing _ (by simp)]
    simp [beforeOutput]

/-- Everything a command's meaning can answer with a next state. -/
theorem exec_next {i : Instr} {s t : State} (h : exec i s = .next t) :
    ∃ r, s.inflight = some r ∧
      ((∃ e, e ≠ .none ∧ firstError (commandChecks i s r) = some e ∧ t = s.raise e) ∨
        (firstError (commandChecks i s r) = none ∧ t = commandEffect i s r)) := by
  rw [exec_eq_runCommand] at h
  obtain ⟨r, hr, ⟨e, he, ht⟩ | ht⟩ := runCommand_next h
  · exact ⟨r, hr, .inl ⟨e, commandChecks_error_ne_none he, he, ht⟩⟩
  · exact ⟨r, hr, .inr ht⟩

/-- A command in flight always completes: no meaning stops on any path. -/
theorem exec_total (i : Instr) {s : State} {r : Inflight} (hr : s.inflight = some r) :
    ∃ t, exec i s = .next t := by
  rw [exec_eq_runCommand]
  cases h : firstError (commandChecks i s r) with
  | none => exact ⟨_, runCommand_effect hr h⟩
  | some e => exact ⟨_, runCommand_error hr h⟩

/-- What no command changes, whether it succeeds or fails. -/
theorem exec_frame {i : Instr} {s t : State} (h : exec i s = .next t) :
    t.rounds = s.rounds ∧ t.ops = s.ops ∧ t.params = s.params ∧ t.capVec = s.capVec ∧
      t.script = s.script ∧ t.rdata = s.rdata ∧ t.breach = s.breach ∧ t.draws = s.draws ∧
      t.inflight = none := by
  obtain ⟨r, -, ⟨e, -, -, rfl⟩ | ⟨-, rfl⟩⟩ := exec_next h
  · exact ⟨rfl, rfl, rfl, rfl, rfl, rfl, rfl, rfl, rfl⟩
  · have hf := commandEffect_frame i s r
    exact ⟨hf.1, hf.2.1, hf.2.2.1, hf.2.2.2.1, hf.2.2.2.2.1, hf.2.2.2.2.2.1, hf.2.2.2.2.2.2.1,
      hf.2.2.2.2.2.2.2, (commandEffect_completes i s r).1⟩

end Sys2Proof.Machine
end

