-- ==== Sys2Proof/Laws/PerInstr.lean ====
section
/-! SUPPORT. The per-instruction family EncodingLegal: the word of every command is legal, it decodes to
that command, and the command is well formed (30_encoding.md R46–R49). -/

namespace Sys2Proof.Laws.EncodingLegal

/-- What is said of each command. -/
def Statement (i : Instr) : Prop :=
  legalWord (encode i) = true ∧ decode (encode i) = .command i ∧ i.wellFormed = true

theorem ldkey (k : KeySel) : Statement (.ldkey k) := by cases k <;> exact ⟨rfl, rfl, rfl⟩
theorem hchacha : Statement .hchacha := ⟨rfl, rfl, rfl⟩
theorem xstream : Statement .xstream := ⟨rfl, rfl, rfl⟩
theorem nhChunk : Statement .nhChunk := ⟨rfl, rfl, rfl⟩
theorem nhMsg : Statement .nhMsg := ⟨rfl, rfl, rfl⟩
theorem hashA : Statement .hashA := ⟨rfl, rfl, rfl⟩
theorem add128 : Statement .add128 := ⟨rfl, rfl, rfl⟩
theorem sub128 : Statement .sub128 := ⟨rfl, rfl, rfl⟩

end Sys2Proof.Laws.EncodingLegal
end

