-- ==== Sys2Proof/Laws/Step.lean ====
section
/-! SUPPORT. What a step can do, said once, turn by turn. -/

namespace Sys2Proof.Machine

/-- A step is its next turn, on the state with that turn taken off the script. -/
theorem step_eq (s : State) :
    step s =
      match s.nextTurn with
      | .engine => engineTurn s.popTurn
      | .host act => hostAct act s.popTurn
      | .reset => .next s.popTurn.resetInput
      | .capVec level => .next { s.popTurn with capVec := level } := by
  unfold step takeTurn State.nextTurn State.popTurn
  split <;> simp_all
  next h => rw [← h]

/-- Everything the engine's turn can answer with a next state. -/
theorem engineTurn_next {s t : State} (h : engineTurn s = .next t) :
    (s.inflight = none ∧ t = s) ∨
      ∃ r, s.inflight = some r ∧
        ((∃ i u, decode r.word = .command i ∧ exec i s = .next u ∧ t = u.settleBreach r.outRange) ∨
          (∃ why, decode r.word = .illegal why ∧
            t = (s.raise .illegalCmd).settleBreach r.outRange)) := by
  unfold engineTurn at h
  split at h
  · next hr => cases h; exact .inl ⟨hr, rfl⟩
  · next r hr =>
    refine .inr ⟨r, hr, ?_⟩
    unfold runWord at h
    split at h
    · next i hi =>
      obtain ⟨u, hu⟩ := exec_total i hr
      rw [hu] at h
      cases h
      exact .inl ⟨i, u, hi, hu, rfl⟩
    · next why hi =>
      have he : execIllegal s = .next (s.raise .illegalCmd) := runCommand_error hr rfl
      rw [he] at h
      cases h
      exact .inr ⟨why, hi, rfl⟩

/-- The engine's turn always answers a next state. -/
theorem engineTurn_total (s : State) : ∃ t, engineTurn s = .next t := by
  unfold engineTurn
  split
  · exact ⟨_, rfl⟩
  · next r hr =>
    unfold runWord
    split
    · next i _ => obtain ⟨u, hu⟩ := exec_total i hr; exact ⟨_, by rw [hu]; rfl⟩
    · have he : execIllegal s = .next (s.raise .illegalCmd) := runCommand_error hr rfl
      exact ⟨_, by rw [he]; rfl⟩

/-- Everything a host action can answer with a next state. -/
theorem hostAct_next {act : HostAction} {s t : State} (h : hostAct act s = .next t) :
    act.wellFormed s.params = true ∧
      ((∃ addr width v, act = .regWrite addr width v ∧
          t = s.writeRegister (addr - s.params.engineBase) v) ∨
        (∃ addr width, act = .regRead addr width ∧
          t = { s with rdata := s.readRegister (addr - s.params.engineBase) }) ∨
        (∃ a b, act = .bufWrite a b ∧ t = s.hostBufWrite a b) ∨
        (∃ a, act = .bufRead a ∧ t = s.hostBufRead a)) := by
  cases act with
  | regWrite addr width v =>
    simp only [hostAct] at h
    split at h
    · cases h
    · split at h
      · cases h
      · cases h; exact ⟨by simp_all [HostAction.wellFormed], .inl ⟨_, _, _, rfl, rfl⟩⟩
  | regRead addr width =>
    simp only [hostAct] at h
    split at h
    · cases h
    · split at h
      · cases h
      · cases h; exact ⟨by simp_all [HostAction.wellFormed], .inr (.inl ⟨_, _, rfl, rfl⟩)⟩
  | bufWrite a b =>
    simp only [hostAct] at h
    split at h
    · cases h; exact ⟨by simp_all [HostAction.wellFormed], .inr (.inr (.inl ⟨_, _, rfl, rfl⟩))⟩
    · cases h
  | bufRead a =>
    simp only [hostAct] at h
    split at h
    · cases h; exact ⟨by simp_all [HostAction.wellFormed], .inr (.inr (.inr ⟨_, rfl, rfl⟩))⟩
    · cases h

/-- A well-formed host action is never stopped. -/
theorem hostAct_total {act : HostAction} {s : State} (h : act.wellFormed s.params = true) :
    ∃ t, hostAct act s = .next t := by
  cases act <;> simp_all [HostAction.wellFormed, hostAct]

/-- Everything a register write can do. -/
theorem writeRegister_cases (s : State) (off : Nat) (v : Word) :
    s.writeRegister off v = { s with rounds := v.extractLsb' 0 5 } ∨
      (off = 0x08 ∧ s.writeRegister off v = s.writeStatus v) ∨
      (off = 0x0C ∧ s.writeRegister off v = s.writeCmd v) ∨
      (∃ o, s.writeRegister off v = { s with ops := o }) := by
  unfold State.writeRegister
  split
  · exact .inl rfl
  · exact .inr (.inl ⟨rfl, rfl⟩)
  · exact .inr (.inr (.inl ⟨rfl, rfl⟩))
  all_goals exact .inr (.inr (.inr ⟨_, rfl⟩))

/-- A host that kept its duty leaves nothing to settle. -/
theorem State.settleBreach_none {s : State} (out : Range) (h : s.breach = Breach.none) :
    s.settleBreach out = s := by
  simp [State.settleBreach, h]

/-- What settling an open breach does. -/
theorem State.settleBreach_open {s : State} (out : Range) (h : s.breach ≠ Breach.none) :
    s.settleBreach out =
      { s with
        buf := s.buf.free s.draws (s.breach.unspecified s.params out)
        status := if s.breach.status then s.status.freed s.draws else s.status
        breach := Breach.none
        draws := s.draws + 1 } := if_neg h

/-- A host that wrote no byte of BUF leaves no byte of BUF unspecified. -/
theorem Breach.unspecified_untouched {b : Breach} (p : Params) (out : Range) (h : b.touched = []) :
    b.unspecified p out = [] := by simp [Breach.unspecified, h]

/-- The output range of a command in flight. -/
theorem Inflight.outRange_command {r : Inflight} {i : Instr} (h : decode r.word = .command i) :
    r.outRange = Machine.outRange i r.ops := by simp [Inflight.outRange, h]

/-- An illegal word in flight has an empty output range. -/
theorem Inflight.outRange_illegal {r : Inflight} {why : DecodeError} (h : decode r.word = .illegal why) :
    r.outRange = { start := 0, len := 0 } := by simp [Inflight.outRange, h]

/-- What settling a breach leaves alone. -/
theorem State.settleBreach_frame (s : State) (out : Range) :
    (s.settleBreach out).rounds = s.rounds ∧ (s.settleBreach out).ops = s.ops ∧
      (s.settleBreach out).outLen = s.outLen ∧ (s.settleBreach out).keys = s.keys ∧
      (s.settleBreach out).inflight = s.inflight ∧ (s.settleBreach out).params = s.params ∧
      (s.settleBreach out).capVec = s.capVec ∧ (s.settleBreach out).script = s.script ∧
      (s.settleBreach out).rdata = s.rdata ∧
      (s.settleBreach out).status.errcode = s.status.errcode ∧
      (s.settleBreach out).status.backend = s.status.backend ∧
      (s.settleBreach out).breach = Breach.none := by
  unfold State.settleBreach
  split
  · next h => simp [h]
  · refine ⟨rfl, rfl, rfl, rfl, rfl, rfl, rfl, rfl, rfl, ?_, ?_, rfl⟩ <;> dsimp only <;> split <;> rfl

end Sys2Proof.Machine
end

