-- ==== Sys2Proof/Tests/Slice0.lean ====
section
/-! SUPPORT. The model's own tests. Expected values come from spec/: a test names the vector of
95_test_vectors.md or the rule it is taken from. XSTREAM and HASH_A are tested over the reference
instances of the two open ports (95_test_vectors.md part 4), since the block's own are free. The
`witness_…` theorems show, for every statement with hypotheses, a state and operands that meet them. -/

namespace Sys2Proof.Tests

open Sys2Proof Sys2Proof.Machine

/-! ### Helpers -/

/-- A byte string in memory order, written as one hexadecimal number of `n` bytes. -/
def hex (n v : Nat) : List Byte := (bytesLE n v).reverse

/-- The bytes a, a + 1, …, `n` of them. -/
def run (a n : Nat) : List Byte := (List.range n).map fun i => BitVec.ofNat 8 (a + i)

/-- A byte string as a vector. -/
def vec (n : Nat) (l : List Byte) (h : l.length = n) : Vector Byte n := Vector.mk l.toArray (by simpa using h)

/-- A loaded key register. -/
def loaded (n : Nat) (l : List Byte) (h : l.length = n) : KeyReg n := { bytes := vec n l h, valid := true }

/-- `k32`, KT and KM of the HASH_A vectors, and `ki` (95_test_vectors.md). -/
def allKeys : KeyStore :=
  { ks := loaded 32 (run 0 32) (by simp [run])
    kt := loaded 32 (run 0x80 32) (by simp [run])
    km := loaded 32 (run 0xA0 32) (by simp [run])
    kn := loaded 1072 (run 0 1072) (by simp [run]) }

/-- The operand registers. -/
def operands (src srcLen aux auxLen dst : Word) : Operands :=
  { src := src, srcLen := srcLen, aux := aux, auxLen := auxLen, dst := dst }

/-- The block with its keys, CFG.ROUNDS and operand registers set and byte strings in BUF, idle. -/
def idle (keys : KeyStore) (rounds : BitVec 5) (o : Operands) (bufs : List (Nat × List Byte)) : State :=
  { State.reset with
    keys := keys
    rounds := rounds
    ops := o
    buf := bufs.foldl (fun m x => m.writeBytes x.1 x.2) State.reset.buf }

/-- What a next state shows. -/
def view {α : Type} (f : State → α) : Result → Option α
  | .next t => some (f t)
  | .fault _ => none
  | .refused _ => none

/-- STATUS after a step. -/
def statusAfter (r : Result) : Option Word := view State.statusWord r

/-- Bytes of BUF and OUT_LEN after a step. -/
def bytesAfter (a n : Nat) (r : Result) : Option (List Byte × Word) :=
  view (fun t => (t.memRead a n, t.outLen)) r

/-- MAC of the reference model, Poly1305 (95_test_vectors.md part 4). -/
def poly1305 : MacFn := fun key msg =>
  let r := leNat (slice key.toList 0 16) &&& 0x0ffffffc0ffffffc0ffffffc0fffffff
  let s := leNat (slice key.toList 16 16)
  let acc := (List.range (ceilDiv msg.length 16)).foldl
    (fun a i => (a + leNat (slice msg (16 * i) 16 ++ [1])) * r % (2 ^ 130 - 5)) 0
  vec 16 (bytesLE 16 (acc + s)) (by simp)

/-! ### Well-formedness: an ill-formed host action for each check, refused -/

/-- An access below ENGINE_BASE + 0x100 only (10_state.md R22). -/
theorem test_outside_block_refused :
    (HostAction.regRead 0x100 4).wellFormed State.reset.params = false ∧
    (HostAction.regWrite 0xFC 4 0).wellFormed State.reset.params = true ∧
    (match hostAct (.regRead 0x100 4) State.reset with
      | .refused .addressOutsideBlock => true
      | _ => false) = true := by decide

/-- A misaligned access and an access of another width (20_memory.md R40). -/
theorem test_misaligned_refused :
    (HostAction.regWrite 0x12 4 0).wellFormed State.reset.params = false ∧
    (HostAction.regRead 0x10 2).wellFormed State.reset.params = false ∧
    (match hostAct (.regWrite 0x12 4 0) State.reset with
      | .refused .registerAccess => true
      | _ => false) = true := by decide

/-- A BUF address that BUF does not have (20_memory.md R35). -/
theorem test_buf_outside_faults :
    (HostAction.bufWrite 4096 0).wellFormed State.reset.params = false ∧
    (HostAction.bufRead 4095).wellFormed State.reset.params = true ∧
    (match hostAct (.bufRead 4096) State.reset with
      | .fault .bufAddressOutside => true
      | _ => false) = true := by decide

/-! ### Decoding: words written out as RSVD, KSEL, OP (30_encoding.md R46, R49) -/

theorem test_decode_ldkey :
    decode (0b0000000000000000000000#22 ++ 0b00#2 ++ 0b00000001#8) = .command (.ldkey .ks) ∧
    decode (0b0000000000000000000000#22 ++ 0b01#2 ++ 0b00000001#8) = .command (.ldkey .kt) ∧
    decode (0b0000000000000000000000#22 ++ 0b10#2 ++ 0b00000001#8) = .command (.ldkey .km) ∧
    decode (0b0000000000000000000000#22 ++ 0b11#2 ++ 0b00000001#8) = .command (.ldkey .kn) := by decide

theorem test_decode_stream :
    decode (0b0000000000000000000000#22 ++ 0b00#2 ++ 0b00010000#8) = .command .hchacha ∧
    decode (0b0000000000000000000000#22 ++ 0b00#2 ++ 0b00010001#8) = .command .xstream := by decide

theorem test_decode_nh :
    decode (0b0000000000000000000000#22 ++ 0b00#2 ++ 0b00100000#8) = .command .nhChunk ∧
    decode (0b0000000000000000000000#22 ++ 0b00#2 ++ 0b00100001#8) = .command .nhMsg := by decide

theorem test_decode_combiner :
    decode (0b0000000000000000000000#22 ++ 0b00#2 ++ 0b00110000#8) = .command .hashA ∧
    decode (0b0000000000000000000000#22 ++ 0b00#2 ++ 0b00110001#8) = .command .add128 ∧
    decode (0b0000000000000000000000#22 ++ 0b00#2 ++ 0b00110010#8) = .command .sub128 := by decide

/-- V-ST1, V-ST3, V-ST4 and V-LK9, and RSVD's highest bit. -/
theorem test_illegal_words :
    decode 0x00000000 = .illegal .reservedOp ∧ decode 0x00000110 = .illegal .keySelectOutsideLdkey ∧
    decode 0x000000FF = .illegal .reservedOp ∧ decode 0x00000401 = .illegal .reservedBits ∧
    decode 0x80000031 = .illegal .reservedBits := by decide

/-- The words of 30_encoding.md R49, encoded. -/
theorem test_encode :
    encode (.ldkey .kn) = 0x00000301 ∧ encode .hchacha = 0x00000010 ∧ encode .sub128 = 0x00000032 := by
  decide

/-! ### LDKEY -/

/-- V-LK1. -/
theorem test_ldkey_loads :
    let r := step ((idle KeyStore.reset 0 (operands 0 32 0 0 0) [(0, run 0 32)]).issue 0x00000001)
    statusAfter r = some 0x00100002 ∧ view (fun t => (t.keys.ks.bytes.toList, t.outLen)) r = some (run 0 32, 0) := by
  decide +kernel

/-- V-LK4, V-LK6. -/
theorem test_ldkey_errors :
    statusAfter (step ((idle KeyStore.reset 0 (operands 0 32 0 0 0) []).issue 0x00000301)) = some 0x00000306 ∧
    statusAfter (step ((idle KeyStore.reset 0 (operands 4065 32 0 0 0) []).issue 0x00000001))
      = some 0x00000506 := by decide +kernel

/-! ### HCHACHA -/

/-- V-HC1: the one vector with an outside check. -/
theorem test_hchacha_vector :
    bytesAfter 0x30 32
        (step ((idle allKeys 20 (operands 0 0 0x20 16 0x30)
          [(0x20, hex 16 0x000000090000004a0000000031415927)]).issue 0x00000010))
      = some (hex 32 0x82413b4227b27bfed30e42508a877d73a0f9e4d58a74a853c12ec41326d3ecdc, 32) := by
  decide +kernel

/-- V-HC17, V-HC13. -/
theorem test_hchacha_errors :
    statusAfter (step ((idle KeyStore.reset 0 (operands 0 0 0 99 0xFFFFFFF0) []).issue 0x00000010))
      = some 0x00000206 ∧
    statusAfter (step ((idle allKeys 12 (operands 0 0 0x20 16 0x10) []).issue 0x00000010))
      = some 0x00F00606 := by decide +kernel

/-! ### XSTREAM, over the ChaCha block function (41_stream.md R62) -/

/-- V-XS14: V-XS2 in place. -/
theorem test_xstream_in_place :
    bytesAfter 0x40 3
        (xstreamWith chachaBlock
          ((idle allKeys 12 (operands 0x40 3 0xC0 0 0x40) [(0x40, hex 3 0x616263)]).issue 0x00000011))
      = some (hex 3 0xf66aaa, 3) := by decide +kernel

/-- V-XS15, V-XS10. -/
theorem test_xstream_overlap_and_empty :
    statusAfter (step ((idle allKeys 12 (operands 0x40 3 0xC0 0 0x41) []).issue 0x00000011))
      = some 0x00F00606 ∧
    statusAfter (step ((idle allKeys 12 (operands 0x40 0 0xC0 23 0x41) []).issue 0x00000011))
      = some 0x00F00002 := by decide +kernel

/-- L1-1: the full nonce of 23 bytes, and of none. -/
theorem test_full_nonce :
    (fullNonce (run 0x40 23)).toList = run 0x40 23 ++ [0x01] ∧
    (fullNonce []).toList = 0x01 :: zeros 23 := by decide +kernel

/-! ### NH_CHUNK -/

/-- V-NH2, with CAP_VEC = 1 (V-NH22): the same bytes, and BACKEND becomes 2. -/
theorem test_nh_chunk_vector :
    let r := step ({ idle allKeys 0 (operands 0 16 0 0 0x100) [(0, zeros 16)] with capVec := true }.issue 0x00000020)
    bytesAfter 0x100 32 r
      = some (hex 32 0x3078da5835f18a00b0bb21e4443dd3043003717b6495230db04ec81e94f97b19, 32) ∧
    statusAfter r = some 0x00F20002 := by decide +kernel

/-- V-NH20, and V-NH23: a failed command does not latch the backend. -/
theorem test_nh_chunk_errors :
    statusAfter (step ((idle KeyStore.reset 0 (operands 0 24 0 0 0x100) []).issue 0x00000020))
      = some 0x00000406 ∧
    statusAfter (step ((idle allKeys 0 (operands 0 0 0 0 0x100) []).issue 0x00000020)) = some 0x00F00406 := by
  decide +kernel

/-! ### NH_MSG -/

/-- V-NH6. -/
theorem test_nh_msg_vector :
    bytesAfter 0x100 32 (step ((idle allKeys 0 (operands 0 20 0 0 0x100) [(0, run 0 20)]).issue 0x00000021))
      = some (hex 32 0xf0c587409bdb030970a3934b36191319f088af6ef16e32317076dba9ccdc6151, 32) := by
  decide +kernel

/-- V-NM1: the empty message latches the backend; V-NM8. -/
theorem test_nh_msg_empty_and_range :
    statusAfter (step ((idle allKeys 0 (operands 0 0 0 0 0x100) []).issue 0x00000021)) = some 0x00F10002 ∧
    statusAfter (step ((idle allKeys 0 (operands 0 1025 0 0 4033) []).issue 0x00000021))
      = some 0x00F00506 := by decide +kernel

/-! ### HASH_A, over Poly1305 (95_test_vectors.md part 4) -/

/-- V-HA2. -/
theorem test_hash_a_vector :
    bytesAfter 0x560 16
        (hashAWith poly1305
          ((idle allKeys 0 (operands 0x500 32 0x520 5 0x560)
            [(0x500, run 0 32), (0x520, hex 5 0x747765616b)]).issue 0x00000030))
      = some (hex 16 0x49a3206fcf4e0ad5ce2b3a87c1135b5b, 16) := by decide +kernel

/-- V-HA7: BACKEND is not latched. -/
theorem test_hash_a_key_missing :
    statusAfter (step ((idle { allKeys with km := KeyReg.reset 32 } 0 (operands 0 0 0 0 0) []).issue 0x00000030))
      = some 0x00B00706 := by decide +kernel

/-! ### ADD128, SUB128 -/

/-- V-AD2. -/
theorem test_add128_carry :
    bytesAfter 0xD0 16
        (step ((idle KeyStore.reset 0 (operands 0xA0 16 0xB0 16 0xD0)
          [(0xA0, hex 16 0xffffffffffffffff0000000000000000),
            (0xB0, hex 16 0x01000000000000000000000000000000)]).issue 0x00000031))
      = some (hex 16 0x00000000000000000100000000000000, 16) := by decide +kernel

/-- V-AD6: SRC = AUX. -/
theorem test_add128_doubles :
    bytesAfter 0xD0 16
        (step ((idle KeyStore.reset 0 (operands 0xA0 16 0xA0 16 0xD0)
          [(0xA0, hex 16 0x0123456789abcdeffedcba9876543210)]).issue 0x00000031))
      = some (hex 16 0x02468ace12579bdffdb97531eda86420, 16) := by decide +kernel

/-- V-SB2. -/
theorem test_sub128_borrow :
    bytesAfter 0xD0 16
        (step ((idle KeyStore.reset 0 (operands 0xA0 16 0xB0 16 0xD0)
          [(0xA0, hex 16 0x00000000000000000100000000000000),
            (0xB0, hex 16 0x01000000000000000000000000000000)]).issue 0x00000032))
      = some (hex 16 0xffffffffffffffff0000000000000000, 16) := by decide +kernel

/-- V-AD5 with DST = SRC (program P1). -/
theorem test_sub128_in_place :
    bytesAfter 0xD0 16
        (step ((idle KeyStore.reset 0 (operands 0xD0 16 0xB0 16 0xD0)
          [(0xD0, hex 16 0x00000000000000000100000000000000),
            (0xB0, hex 16 0x01000000000000000000000000000000)]).issue 0x00000032))
      = some (hex 16 0xffffffffffffffff0000000000000000, 16) := by decide +kernel

/-! ### STATUS -/

/-- V-ST1 and V-ST3. -/
theorem test_status_illegal :
    statusAfter (step (State.reset.issue 0x00000000)) = some 0x00000106 ∧
    statusAfter (step (State.reset.issue 0x00000110)) = some 0x00000106 := by decide +kernel

/-- V-ST2 and V-ST8: from STATUS = 0x106, `clrstatus` and a write of all ones leave ERRCODE. -/
theorem test_status_clear :
    let s := State.reset.raise .illegalCmd
    s.statusWord = 0x00000106 ∧ (s.writeRegister 0x08 0x0000000E).statusWord = 0x00000100 ∧
    (s.writeRegister 0x08 0xFFFFFFFF).statusWord = 0x00000100 ∧
    (s.writeRegister 0x08 0x00000002).statusWord = 0x00000104 := by decide +kernel

/-- V-ST6: a CMD write while BUSY = 1 sets OVR and keeps the command in flight. -/
theorem test_status_ovr :
    let s := State.reset.issue 0x00000031
    (s.writeRegister 0x0C 0x00000032).statusWord = 0x00000009 ∧
    (s.writeRegister 0x0C 0x00000032).inflight = s.inflight := by decide +kernel

/-- V-ST9, and ID (10_state.md R25). -/
theorem test_reserved_and_id :
    State.reset.readRegister 0x40 = 0 ∧ State.reset.readRegister 0x00 = 0x55484541 := by decide

/-! ### Pseudo-instructions -/

/-- 30_encoding.md R52: the expansion of `ldkey KN, 0, 1072`, one poll seeing BUSY = 1. -/
theorem test_asm_ldkey :
    Asm.ldkey State.reset.params .kn 0 1072 1 =
      [.host (.regWrite 0x10 4 0), .host (.regWrite 0x14 4 1072), .host (.regWrite 0x0C 4 0x301),
        .host (.regRead 0x08 4), .engine, .host (.regRead 0x08 4)] := by decide

/-- 30_encoding.md R52: the expansion of `sub128 0xD0, 0xA0, 0xB0`, no poll seeing BUSY = 1. -/
theorem test_asm_sub128 :
    Asm.sub128 State.reset.params 0xD0 0xA0 0xB0 0 =
      [.host (.regWrite 0x10 4 0xA0), .host (.regWrite 0x14 4 16), .host (.regWrite 0x18 4 0xB0),
        .host (.regWrite 0x1C 4 16), .host (.regWrite 0x20 4 0xD0), .host (.regWrite 0x0C 4 0x32),
        .engine, .host (.regRead 0x08 4)] := by decide

/-! ### Witnesses: for each statement with hypotheses, a state and operands that meet them

Where a statement has several clauses, each has its own witness, at a boundary of its range. -/

/-- What a next state shows comes from a next state. -/
theorem of_view {α : Type} {f : State → α} {r : Result} {x : α} (h : view f r = some x) :
    ∃ t, r = .next t ∧ f t = x := by
  cases r with
  | next t => exact ⟨t, rfl, by simpa [view] using h⟩
  | fault e => cases h
  | refused e => cases h

/-- An engine's turn answers a next state. -/
theorem engine_step {s : State} (h : s.script = []) : ∃ t, step s = .next t := by
  rw [step, takeTurn, h]
  exact engineTurn_total s

/-- A well-formed host turn answers a next state. -/
theorem host_step {s : State} {act : HostAction} {rest : List Turn} (h : s.script = .host act :: rest)
    (hw : act.wellFormed s.params = true) : ∃ t, step s = .next t := by
  rw [step, takeTurn, h]
  exact hostAct_total hw

/-- A word in flight over loaded keys and an empty BUF. -/
def flying (w : Word) (rounds : BitVec 5) (o : Operands) : State := (idle allKeys rounds o []).issue w

/-- Its in-flight record. -/
def record (w : Word) (rounds : BitVec 5) (o : Operands) : Inflight :=
  { word := w, ops := o, rounds := rounds }

/-- The state with its turns. -/
def withTurns (s : State) (turns : List Turn) : State := { s with script := turns }

theorem flying_inflight (w : Word) (rounds : BitVec 5) (o : Operands) :
    (flying w rounds o).inflight = some (record w rounds o) := rfl

theorem flying_wf (w : Word) (rounds : BitVec 5) (o : Operands) : (flying w rounds o).buf.wf :=
  List.Pairwise.nil

/-- Clause 4: KSEL is 1 outside LDKEY (V-ST3). -/
theorem witness_OpcodeMapDecidesLegality :
    let s := flying 0x00000110 0 Operands.zero
    s.inflight = some (record 0x00000110 0 Operands.zero) ∧ s.breach = Breach.none ∧ s.script = [] ∧
    (∀ row ∈ opcodeMap, ¬((record 0x00000110 0 Operands.zero).word &&& row.mask = row.mtch)) := by
  decide +kernel

theorem witness_StepRunsTheCommandInFlight :
    let s := withTurns (flying 0x00000301 0 Operands.zero) [.engine]
    s.inflight = some (record 0x00000301 0 Operands.zero) ∧
    decode (record 0x00000301 0 Operands.zero).word = .command (.ldkey .kn) ∧ s.nextTurn = .engine ∧
    s.breach = Breach.none := by decide +kernel

theorem witness_PlacedWordRunsNext : decodeTableWord 32 0x00000301 = some (.ldkey .kn) := by decide

theorem witness_EveryCommandEndsWithDone : ∃ r, (flying 0x00000031 0 Operands.zero).inflight = some r :=
  ⟨_, rfl⟩

/-- Success at the last byte of BUF (V-LK7); the next address is RANGE (V-LK6). -/
theorem witness_LdkeyLoadsTheKeyRegister :
    let r := record 0x00000001 0 (operands 4064 32 0 0 0)
    let s := flying 0x00000001 0 (operands 4064 32 0 0 0)
    let r' := record 0x00000001 0 (operands 4065 32 0 0 0)
    (s.inflight = some r ∧ r.ops.srcLen.toNat = KeySel.ks.size ∧
      r.ops.src.toNat + KeySel.ks.size ≤ s.params.bufSize) ∧
    Spec.errorOf (.ldkey .ks) s.params s.keys r' = .range := by decide +kernel

/-- The output touches the nonce at its edge and ends BUF (V-HC14); one address on is RANGE (V-HC15). -/
theorem witness_HchachaWritesTheSubkey :
    let r := record 0x00000010 8 (operands 0 0 4048 16 4064)
    let s := flying 0x00000010 8 (operands 0 0 4048 16 4064)
    let r' := record 0x00000010 8 (operands 0 0 4048 16 4065)
    (s.inflight = some r ∧ (r.rounds = 8 ∨ r.rounds = 12 ∨ r.rounds = 20) ∧ r.ops.auxLen.toNat = 16 ∧
      r.ops.aux.toNat + 16 ≤ s.params.bufSize ∧ r.ops.dst.toNat + 32 ≤ s.params.bufSize ∧
      ¬Spec.meets r.ops.dst.toNat 32 r.ops.aux.toNat 16 ∧ s.keys.ks.valid = true) ∧
    Spec.errorOf .hchacha s.params s.keys r' = .range := by decide +kernel

/-- In place at the end of BUF, with the longest nonce just before it; 24 bytes are too many (V-XS12). -/
theorem witness_XstreamXorsTheKeystream :
    let r := record 0x00000011 20 (operands 4095 1 4072 23 4095)
    let s := flying 0x00000011 20 (operands 4095 1 4072 23 4095)
    let r' := record 0x00000011 20 (operands 4095 1 4071 24 4095)
    (s.inflight = some r ∧ (r.rounds = 8 ∨ r.rounds = 12 ∨ r.rounds = 20) ∧ r.ops.auxLen.toNat ≤ 23 ∧
      r.ops.src.toNat + r.ops.srcLen.toNat ≤ s.params.bufSize ∧
      r.ops.aux.toNat + r.ops.auxLen.toNat ≤ s.params.bufSize ∧
      r.ops.dst.toNat + r.ops.srcLen.toNat ≤ s.params.bufSize ∧
      (r.ops.dst = r.ops.src ∨
        ¬Spec.meets r.ops.dst.toNat r.ops.srcLen.toNat r.ops.src.toNat r.ops.srcLen.toNat) ∧
      ¬Spec.meets r.ops.dst.toNat r.ops.srcLen.toNat r.ops.aux.toNat r.ops.auxLen.toNat ∧
      s.keys.ks.valid = true) ∧
    Spec.errorOf .xstream s.params s.keys r' = .badLength := by decide +kernel

/-- The longest chunk (V-NH18); 1040 bytes are too many (V-NH17). -/
theorem witness_NhChunkWritesTheDigest :
    let r := record 0x00000020 0 (operands 0 1024 0 0 4064)
    let s := flying 0x00000020 0 (operands 0 1024 0 0 4064)
    let r' := record 0x00000020 0 (operands 0 1040 0 0 4064)
    (s.inflight = some r ∧ r.ops.srcLen.toNat % 16 = 0 ∧ 16 ≤ r.ops.srcLen.toNat ∧
      r.ops.srcLen.toNat ≤ 1024 ∧ r.ops.src.toNat + r.ops.srcLen.toNat ≤ s.params.bufSize ∧
      r.ops.dst.toNat + 32 ≤ s.params.bufSize ∧
      ¬Spec.meets r.ops.dst.toNat 32 r.ops.src.toNat r.ops.srcLen.toNat ∧ s.keys.kn.valid = true) ∧
    Spec.errorOf .nhChunk s.params s.keys r' = .badLength := by decide +kernel

/-- Two digests at the end of BUF; one address on is RANGE (V-NM8). -/
theorem witness_NhMsgWritesTheDigests :
    let r := record 0x00000021 0 (operands 0 1025 0 0 4032)
    let s := flying 0x00000021 0 (operands 0 1025 0 0 4032)
    let r' := record 0x00000021 0 (operands 0 1025 0 0 4033)
    (s.inflight = some r ∧ r.ops.src.toNat + r.ops.srcLen.toNat ≤ s.params.bufSize ∧
      r.ops.dst.toNat + 32 * ((r.ops.srcLen.toNat + 1023) / 1024) ≤ s.params.bufSize ∧
      ¬Spec.meets r.ops.dst.toNat (32 * ((r.ops.srcLen.toNat + 1023) / 1024)) r.ops.src.toNat
        r.ops.srcLen.toNat ∧
      s.keys.kn.valid = true) ∧
    Spec.errorOf .nhMsg s.params s.keys r' = .range := by decide +kernel

/-- Empty ranges at one address (V-HA10); a tweak byte under the output is OVERLAP (V-HA8). -/
theorem witness_HashAWritesTheHash :
    let r := record 0x00000030 0 (operands 4080 0 4080 0 4080)
    let s := flying 0x00000030 0 (operands 4080 0 4080 0 4080)
    let r' := record 0x00000030 0 (operands 4080 0 4095 1 4080)
    (s.inflight = some r ∧ r.ops.src.toNat + r.ops.srcLen.toNat ≤ s.params.bufSize ∧
      r.ops.aux.toNat + r.ops.auxLen.toNat ≤ s.params.bufSize ∧
      r.ops.dst.toNat + 16 ≤ s.params.bufSize ∧
      ¬Spec.meets r.ops.dst.toNat 16 r.ops.src.toNat r.ops.srcLen.toNat ∧
      ¬Spec.meets r.ops.dst.toNat 16 r.ops.aux.toNat r.ops.auxLen.toNat ∧
      s.keys.kt.valid = true ∧ s.keys.km.valid = true ∧ s.keys.kn.valid = true) ∧
    Spec.errorOf .hashA s.params s.keys r' = .overlap := by decide +kernel

/-- DST = SRC at the end of BUF, AUX touching it at the edge; one address on is no alias. -/
theorem witness_Add128WritesTheSum :
    let r := record 0x00000031 0 (operands 4080 16 4064 16 4080)
    let s := flying 0x00000031 0 (operands 4080 16 4064 16 4080)
    let r' := record 0x00000031 0 (operands 4079 16 4063 16 4080)
    (s.inflight = some r ∧ r.ops.srcLen.toNat = 16 ∧ r.ops.auxLen.toNat = 16 ∧
      r.ops.src.toNat + 16 ≤ s.params.bufSize ∧ r.ops.aux.toNat + 16 ≤ s.params.bufSize ∧
      r.ops.dst.toNat + 16 ≤ s.params.bufSize ∧
      (r.ops.dst = r.ops.src ∨ ¬Spec.meets r.ops.dst.toNat 16 r.ops.src.toNat 16) ∧
      (r.ops.dst = r.ops.aux ∨ ¬Spec.meets r.ops.dst.toNat 16 r.ops.aux.toNat 16)) ∧
    Spec.errorOf .add128 s.params s.keys r' = .overlap := by decide +kernel

/-- DST = AUX, SRC at the edge; a length of 15 is BAD_LENGTH. -/
theorem witness_Sub128WritesTheDifference :
    let r := record 0x00000032 0 (operands 4064 16 4080 16 4080)
    let s := flying 0x00000032 0 (operands 4064 16 4080 16 4080)
    let r' := record 0x00000032 0 (operands 4064 16 4080 15 4080)
    (s.inflight = some r ∧ r.ops.srcLen.toNat = 16 ∧ r.ops.auxLen.toNat = 16 ∧
      r.ops.src.toNat + 16 ≤ s.params.bufSize ∧ r.ops.aux.toNat + 16 ≤ s.params.bufSize ∧
      r.ops.dst.toNat + 16 ≤ s.params.bufSize ∧
      (r.ops.dst = r.ops.src ∨ ¬Spec.meets r.ops.dst.toNat 16 r.ops.src.toNat 16) ∧
      (r.ops.dst = r.ops.aux ∨ ¬Spec.meets r.ops.dst.toNat 16 r.ops.aux.toNat 16)) ∧
    Spec.errorOf .sub128 s.params s.keys r' = .badLength := by decide +kernel

/-- An illegal word, and a legal one on which four codes apply (V-HC17). -/
theorem witness_FirstErrorIsReported :
    let s := flying 0x000000FF 0 Operands.zero
    let s' := flying 0x00000010 0 (operands 0 0 0 99 0xFFFFFFF0)
    (s.inflight = some (record 0x000000FF 0 Operands.zero) ∧ s.nextTurn = .engine ∧
      (∃ t, step s = .next t) ∧
      ∀ row ∈ opcodeMap, ¬((record 0x000000FF 0 Operands.zero).word &&& row.mask = row.mtch)) ∧
    (s'.inflight = some (record 0x00000010 0 (operands 0 0 0 99 0xFFFFFFF0)) ∧ s'.nextTurn = .engine ∧
      (∃ t, step s' = .next t) ∧ decode 0x00000010 = .command .hchacha) :=
  ⟨⟨rfl, rfl, engine_step rfl, by decide⟩, rfl, rfl, engine_step rfl, by decide⟩

theorem witness_ErrorsChangeNothingElse :
    let s := flying 0x00000010 0 (operands 0 0 0 99 0xFFFFFFF0)
    s.inflight = some (record 0x00000010 0 (operands 0 0 0 99 0xFFFFFFF0)) ∧ s.breach = Breach.none ∧
    s.nextTurn = .engine ∧ ∃ t, step s = .next t ∧ t.status.errcode ≠ .none := by
  refine ⟨rfl, rfl, rfl, ?_⟩
  obtain ⟨t, h, e⟩ := of_view (f := fun t => t.status.errcode) (x := .badRounds)
    (r := step (flying 0x00000010 0 (operands 0 0 0 99 0xFFFFFFF0))) (by decide +kernel)
  exact ⟨t, h, by rw [e]; decide⟩

theorem witness_SuccessSetsStatusAndLength :
    (flying 0x00000021 0 (operands 0 0 0 0 4096)).inflight
      = some (record 0x00000021 0 (operands 0 0 0 0 4096)) ∧
    ∃ t, exec .nhMsg (flying 0x00000021 0 (operands 0 0 0 0 4096)) = .next t ∧ t.status.errcode = .none :=
  ⟨rfl, of_view (f := fun t => t.status.errcode) (by decide +kernel)⟩

theorem witness_LdkeyFrame : ∃ t, exec (.ldkey .kn) (flying 0x00000301 0 (operands 3024 1072 0 0 0)) = .next t :=
  exec_total _ (flying_inflight _ _ _)

/-- A success that stores at the end of BUF and latches the backend. -/
theorem witness_StoringFrame :
    (∀ k, Instr.nhChunk ≠ .ldkey k) ∧ (flying 0x00000020 0 (operands 0 16 0 0 4064)).buf.wf ∧
    (flying 0x00000020 0 (operands 0 16 0 0 4064)).inflight
      = some (record 0x00000020 0 (operands 0 16 0 0 4064)) ∧
    ∃ t, exec .nhChunk (flying 0x00000020 0 (operands 0 16 0 0 4064)) = .next t ∧ t.status.errcode = .none :=
  ⟨fun _ => Instr.noConfusion, flying_wf _ _ _, rfl,
    of_view (f := fun t => t.status.errcode) (by decide +kernel)⟩

theorem witness_CmdWriteTakesTheSnapshot :
    let s := withTurns State.reset [Asm.cmd State.reset.params 0xFFFFFFFF]
    s.busy = false ∧ s.script = Asm.cmd s.params 0xFFFFFFFF :: [] := by decide

theorem witness_CmdWriteWhileBusySetsOnlyOvr :
    let s := withTurns (flying 0x00000031 0 Operands.zero) [Asm.cmd State.reset.params 0x00000032]
    s.busy = true ∧ s.script = Asm.cmd s.params 0x00000032 :: [] := by decide

theorem witness_CommandsReadOnlyTheSnapshot : (flying 0x00000010 31 Operands.zero).busy = true := rfl

theorem witness_OperandWriteCommutesWithCompletion :
    (flying 0x00000011 8 (operands 0 1 2 3 4)).busy = true ∧ ∃ reg : RegName,
      reg = .cfg ∨ reg = .src ∨ reg = .srcLen ∨ reg = .aux ∨ reg = .auxLen ∨ reg = .dst :=
  ⟨rfl, .cfg, .inl rfl⟩

/-- A write of the last byte of BUF and a read of it, and an empty read. -/
theorem witness_MemWriteThenRead : (0 < 1) ∧ State.reset.buf.wf ∧ (State.reset.buf.writeBytes 4095 [7]).wf :=
  ⟨by decide, State.reset_buf_wf, Buf.writeBytes_wf _ _ _ State.reset_buf_wf⟩

/-- The highest address of BUF, written and read. -/
theorem witness_HostPortReadsWhatItWrote :
    let s := withTurns State.reset [.host (.bufWrite 4095 7)]
    let s' := withTurns State.reset [.host (.bufRead 4095)]
    (s.busy = false ∧ s.buf.wf ∧ 4095 < s.params.bufSize ∧ s.script = .host (.bufWrite 4095 7) :: []) ∧
    (s'.busy = false ∧ s'.buf.wf ∧ s'.script = .host (.bufRead 4095) :: []) :=
  ⟨⟨rfl, State.reset_buf_wf, by decide, rfl⟩, rfl, State.reset_buf_wf, rfl⟩

/-- The last offset of the reserved range. -/
theorem witness_RegisterMapReads : 0x2C ≤ 0xFC ∧ State.reset.readRegister 0xFC = 0 := by decide

/-- The last aligned offset of the block, read and written. -/
theorem witness_RegisterAccessIsOneStep :
    let s := withTurns State.reset [.host (.regRead (State.reset.params.engineBase + 0xFC) 4)]
    let s' := withTurns State.reset [.host (.regWrite (State.reset.params.engineBase + 0xFC) 4 1)]
    0xFC < 256 ∧ 0xFC % 4 = 0 ∧ s.script = .host (.regRead (s.params.engineBase + 0xFC) 4) :: [] ∧
    s'.script = .host (.regWrite (s'.params.engineBase + 0xFC) 4 1) :: [] := by decide

theorem witness_StatusWriteClearsWrittenOnes :
    let s := withTurns (State.reset.raise .illegalCmd) [Asm.wr State.reset.params .status 0xFFFFFFFF]
    s.busy = false ∧ s.script = Asm.wr s.params .status 0xFFFFFFFF :: [] := by decide

/-- The ignored offsets: ID, CAPS, OUT_LEN and the first reserved one. -/
theorem witness_RegisterWritesStoreOrAreIgnored :
    (∀ off ∈ [0x10, 0x14, 0x18, 0x1C, 0x20], State.reset.readRegister off = 0) ∧
    (0x00 = 0x00 ∧ 0x24 = 0x24 ∧ 0x28 ≤ 0x28 ∧ 0x28 ≤ 0x2C) := by decide

/-- Two key stores that differ in their bytes and agree in their valid bits. -/
theorem witness_KeysHaveNoReadPath :
    let st : KeyStore := { allKeys with ks := loaded 32 (run 1 32) (by simp [run]) }
    (∀ k, st.valid k = (flying 0 0 Operands.zero).keys.valid k) ∧
    st.ks ≠ (flying 0 0 Operands.zero).keys.ks :=
  ⟨fun k => by cases k <;> rfl, by decide +kernel⟩

/-- Reset while BUSY = 1 (`rest` is one more turn). -/
theorem witness_ResetInputFromAnyState :
    let s := withTurns (flying 0x00000020 0 Operands.zero) [.reset, .capVec true]
    s.busy = true ∧ s.script = .reset :: [.capVec true] := by decide

/-- A host write at the last address of BUF, from a state with the invariant, and an engine's turn. -/
theorem witness_StepKeepsTheInvariant :
    State.reset.Inv ∧ (∃ t, step (withTurns State.reset [.host (.bufWrite 4095 1)]) = .next t) ∧
    (flying 0x00000031 0 Operands.zero).Inv ∧ ∃ t, step (flying 0x00000031 0 Operands.zero) = .next t := by
  refine ⟨?_, host_step rfl (by decide), ?_, engine_step rfl⟩
  · exact ⟨State.reset_buf_wf, by simp [State.reset], by decide, by decide, fun h => absurd rfl h,
      fun _ => rfl, by simp [State.reset, Breach.none]⟩
  · exact ⟨flying_wf _ _ _, by simp [flying, idle, State.issue, State.reset], by decide, by decide,
      fun h => absurd rfl h, fun _ => rfl,
      by simp [flying, idle, State.issue, State.reset, Breach.none]⟩

/-- Clause 1: a VECTOR latch while CAP_VEC is low. Clause 2: no latch yet. -/
theorem witness_BackendLatchIsTakenOnce :
    let s := flying 0x00000020 0 (operands 0 16 0 0 32)
    let s' : State := { s with status := { StatusBits.reset with backend := .vector } }
    ((∃ t, step s' = .next t) ∧ s'.status.backend ≠ .notSelected ∧ s'.nextTurn ≠ .reset) ∧
    ((∃ t, exec .nhChunk s = .next t) ∧ s.status.backend = .notSelected) :=
  ⟨⟨engine_step rfl, by decide, by decide⟩, exec_total _ (flying_inflight _ _ _), rfl⟩

/-- A reset and an LDKEY each change a key register. -/
theorem witness_OnlyLdkeyWritesAKey :
    (∃ t, step (withTurns (flying 0 0 Operands.zero) [.reset]) = .next t ∧
      (t.keys.ks == (flying 0 0 Operands.zero).keys.ks) = false) ∧
    ∃ t, step ((idle KeyStore.reset 0 (operands 0 32 0 0 0) []).issue 0x00000001) = .next t ∧
      (t.keys.ks.valid == (idle KeyStore.reset 0 (operands 0 32 0 0 0) []).keys.ks.valid) = false :=
  ⟨of_view (f := fun t => t.keys.ks == (flying 0 0 Operands.zero).keys.ks) (by decide +kernel),
    of_view (f := fun t => t.keys.ks.valid == (idle KeyStore.reset 0 (operands 0 32 0 0 0) []).keys.ks.valid)
      (by decide +kernel)⟩

/-- The host writes CMD again and polls before the engine moves. -/
theorem witness_CommandInFlightIsCompletedEventually :
    let s := withTurns (flying 0x00000031 0 Operands.zero)
      [Asm.cmd State.reset.params 0x00000032, Asm.rd State.reset.params .status]
    s.busy = true ∧ ∀ turn ∈ s.script, turn.wellFormed s.params = true := by decide

theorem witness_WaitEndsWithBusyClear :
    let s := withTurns (flying 0x00000031 0 Operands.zero) (Asm.wait State.reset.params 1)
    s.busy = true ∧ s.script = Asm.wait s.params 1 ++ [] := by decide

theorem witness_IdleBlockChangesNothing : State.reset.busy = false ∧ State.reset.script = [] := by decide

/-- Two states that differ in the latch and in CAP_VEC. -/
theorem witness_BackendNeverChangesAResult :
    let s := flying 0x00000020 0 (operands 0 16 0 0 32)
    let s' : State := { s with capVec := true, status := { s.status with backend := .vector } }
    s.hideBackend = s'.hideBackend ∧ s.capVec ≠ s'.capVec := ⟨rfl, by decide⟩

/-- Two states that agree on the two operands and differ in another byte of BUF. -/
theorem witness_ResultDependsOnlyOnTheInputs :
    let o := operands 0 16 4080 16 32
    let s := flying 0x00000031 0 o
    let s' : State := { s with buf := s.buf.write 16 7 }
    s.buf.wf ∧ s'.buf.wf ∧ s.inflight = some (record 0x00000031 0 o) ∧
    s'.inflight = some (record 0x00000031 0 o) ∧ s.params = s'.params ∧ s.keys = s'.keys ∧
    (∀ inp ∈ inputs .add128 o, ∀ a, inp.range.holds a = true → s.buf.read a = s'.buf.read a) ∧
    (∃ t, exec .add128 s = .next t) ∧ ∃ t, exec .add128 s' = .next t := by
  refine ⟨flying_wf _ _ _, Buf.write_wf _ _ _ (flying_wf _ _ _), rfl, rfl, rfl, rfl, ?_,
    exec_total _ rfl, exec_total _ rfl⟩
  intro inp hi a ha
  have hne : a ≠ 16 := by
    simp only [inputs, List.mem_cons, List.not_mem_nil, or_false] at hi
    rcases hi with rfl | rfl <;>
      simp [Range.holds, Operands.srcRange, Operands.auxRange, operands] at ha <;> omega
  exact (by rw [Buf.read_write _ _ _ _ (flying_wf _ _ _), if_neg hne])

theorem witness_BothPathsComputeTheDigest : (zeros 1024).length % 16 = 0 := by decide +kernel

/-- Two states that differ in the bytes of a key that is not loaded. -/
theorem witness_UnloadedKeyBytesAreUnobservable :
    let s : State := { State.reset with
      keys := { KeyStore.reset with ks := { bytes := vec 32 (run 0 32) (by simp [run]), valid := false } } }
    s.hideUnloadedKeys = State.reset.hideUnloadedKeys ∧ s.keys.ks ≠ State.reset.keys.ks :=
  ⟨rfl, by decide +kernel⟩

theorem witness_Add128IsTheSumMod2To128 : (zeros 16).length = 16 ∧ (hex 16 0xff).length = 16 := by decide

theorem witness_Sub128IsTheDifferenceMod2To128 : (zeros 16).length = 16 ∧ (hex 16 0xff).length = 16 := by
  decide

theorem witness_CombinersAreInverse : (zeros 16).length = 16 ∧ (hex 16 0xff).length = 16 := by decide

theorem witness_PaddingChangesTheDigest : (zeros 16).length % 16 = 0 := by decide

/-- The two cases at their bounds, and the longest nonce. -/
theorem witness_FullNonceIsPaddedWithOne :
    ((run 0 15).length ≤ 23 ∧ (run 0 15).length < 16) ∧ ((run 0 16).length ≤ 23 ∧ 16 ≤ (run 0 16).length) ∧
    (run 0 23).length ≤ 23 := by decide

theorem witness_FullNoncesNeverCollide :
    (run 0 16).length = 16 ∧ (run 0 23).length ≤ 23 ∧ ([] : List Byte).length ≤ 23 := by decide

theorem witness_StreamXorsBlockByBlock : (run 0 23).length ≤ 23 := by decide

/-- In place, twice, at the end of BUF. -/
theorem witness_XstreamTwiceRestoresTheMessage :
    let r := record 0x00000011 20 (operands 4095 1 4072 23 4095)
    let s := flying 0x00000011 20 (operands 4095 1 4072 23 4095)
    s.buf.wf ∧ s.inflight = some r ∧ r.ops.dst = r.ops.src ∧
    ∃ t, exec .xstream s = .next t ∧ t.status.errcode = .none ∧
      ∃ u, exec .xstream { t with inflight := some r } = .next u := by
  refine ⟨flying_wf _ _ _, rfl, rfl, ?_⟩
  obtain ⟨t, h, e⟩ := of_view (f := fun t => t.status.errcode) (x := .none)
    (r := exec .xstream (flying 0x00000011 20 (operands 4095 1 4072 23 4095))) (by decide +kernel)
  exact ⟨t, h, e, exec_total _ rfl⟩

/-- The host wrote one byte inside the output range and the last byte of BUF, under a legal word and under
an illegal one. -/
theorem witness_BufWriteWhileBusyFreesTheOutput :
    let b : Breach := { touched := [33, 4095], status := false }
    let s : State := { flying 0x00000031 0 (operands 0 16 16 16 32) with breach := b }
    let s' : State := { flying 0x00000110 0 Operands.zero with breach := b }
    (s.buf.wf ∧ s.inflight = some (record 0x00000031 0 (operands 0 16 16 16 32)) ∧
      s.breach.touched ≠ [] ∧ s.nextTurn = .engine ∧ (∃ t, step s = .next t) ∧
      decode 0x00000031 = .command .add128 ∧ (∃ u, exec .add128 s.popTurn = .next u) ∧
      4095 < s.params.bufSize) ∧
    (s'.buf.wf ∧ s'.inflight = some (record 0x00000110 0 Operands.zero) ∧ s'.breach.touched ≠ [] ∧
      s'.nextTurn = .engine ∧ (∃ t, step s' = .next t) ∧
      decode 0x00000110 = .illegal .keySelectOutsideLdkey) :=
  ⟨⟨flying_wf 0x00000031 0 (operands 0 16 16 16 32), rfl, by decide, rfl,
      engine_step rfl, by decide, exec_total _ rfl, by decide⟩,
    flying_wf 0x00000110 0 Operands.zero, rfl, by decide, rfl, engine_step rfl, by decide⟩

theorem witness_BufWriteWhileBusyIsNoted :
    let s := withTurns (flying 0x00000031 0 Operands.zero) [.host (.bufWrite 4095 7)]
    s.busy = true ∧ 4095 < s.params.bufSize ∧ s.script = .host (.bufWrite 4095 7) :: [] := by decide

theorem witness_StatusWriteWhileBusyTouchesThreeFlags :
    let s := withTurns (flying 0x00000031 0 Operands.zero) [Asm.wr State.reset.params .status 0xFFFFFFFF]
    s.busy = true ∧ s.script = Asm.wr s.params .status 0xFFFFFFFF :: [] := by decide

/-- A STATUS write was made under a legal word, and under an illegal one. -/
theorem witness_StatusWriteWhileBusyFreesTheFlags :
    let b : Breach := { touched := [], status := true }
    let s : State := { flying 0x00000031 0 (operands 0 16 16 16 32) with breach := b }
    let s' : State := { flying 0x00000110 0 Operands.zero with breach := b }
    (s.inflight = some (record 0x00000031 0 (operands 0 16 16 16 32)) ∧ s.breach.status = true ∧
      s.nextTurn = .engine ∧ (∃ t, step s = .next t) ∧ decode 0x00000031 = .command .add128 ∧
      (∃ u, exec .add128 s.popTurn = .next u) ∧ s.breach.touched = []) ∧
    (s'.inflight = some (record 0x00000110 0 Operands.zero) ∧ s'.breach.status = true ∧
      s'.nextTurn = .engine ∧ (∃ t, step s' = .next t) ∧
      decode 0x00000110 = .illegal .keySelectOutsideLdkey) :=
  ⟨⟨rfl, rfl, rfl, engine_step rfl, by decide, exec_total _ rfl, rfl⟩, rfl, rfl, rfl, engine_step rfl,
    by decide⟩

/-- The last byte of the output range, a written byte outside it, and the first byte after it. -/
theorem witness_BufReadWhileBusyIsFree :
    let o := operands 0 16 16 16 32
    let s : State := { flying 0x00000031 0 o with breach := { touched := [4095], status := false } }
    s.inflight = some (record 0x00000031 0 o) ∧ 4095 < s.params.bufSize ∧
    (withTurns s [.host (.bufRead 47)]).script = .host (.bufRead 47) :: [] ∧
    decode 0x00000031 = .command .add128 ∧ (outRange .add128 o).holds 47 = true ∧
    4095 ∈ s.breach.touched ∧ (outRange .add128 o).holds 4095 = false ∧
    ((∀ i, decode 0x00000031 = .command i → (outRange i o).holds 48 = false) ∧
      48 ∉ s.breach.touched) := by
  refine ⟨rfl, by decide, rfl, by decide, by decide, by decide, by decide, ?_, by decide⟩
  intro i hi
  have : i = .add128 := (Decoded.command.inj hi).symm
  subst this
  decide

end Sys2Proof.Tests
end

section
/-! PROOFS. MemWrite, MemRead and byte order (00_scope.md R12, R15; 20_memory.md R35, R39): a read after a
write, the value of the bytes read, the bytes of a value, and the obligation assembled from them. -/

namespace Sys2Proof.Machine

/-- MemWrite said once: the string's byte inside the written range, the old byte outside it. -/
theorem Buf.read_writeBytes (m : Buf) (a x : Nat) (bs : List Byte) (h : m.wf) :
    (m.writeBytes a bs).read x =
      if a ≤ x ∧ x < a + bs.length then bs.getD (x - a) 0 else m.read x := by
  split
  · next hx =>
    obtain ⟨i, rfl⟩ := Nat.exists_eq_add_of_le hx.1
    have hi : i < bs.length := by omega
    rw [m.read_writeBytes_inside a i bs h hi, Nat.add_sub_cancel_left, List.getD_eq_getElem _ _ hi]
  · exact m.read_writeBytes_outside a x bs h (by omega)

theorem State.memRead_getElem? (s : State) (a n i : Nat) (hi : i < n) :
    (s.memRead a n)[i]? = some (s.buf.read (a + i)) :=
  List.getElem?_eq_some_iff.mpr ⟨by simpa using hi, s.mem_memRead a n i hi⟩

/-- MemRead of a range just written gives the written string. -/
theorem State.memRead_writeBytes (s : State) (a : Nat) (bs : List Byte) (h : s.buf.wf) :
    { s with buf := s.buf.writeBytes a bs }.memRead a bs.length = bs := by
  refine List.ext_getElem (State.memRead_length _ _ _) fun i _ hi => ?_
  rw [State.mem_memRead _ _ _ _ hi, s.buf.read_writeBytes_inside a i bs h hi]

/-- A longer read is the shorter read and one more byte. -/
theorem State.memRead_succ (s : State) (a n : Nat) :
    s.memRead a (n + 1) = s.memRead a n ++ [s.buf.read (a + n)] := by
  simp [State.memRead, List.range_succ]

/-- The value of the bytes read, little-endian; by induction on their number, the last byte read being the
most significant one. -/
theorem State.leNat_memRead (s : State) (a n : Nat) :
    leNat (s.memRead a n) = ∑ i ∈ Finset.range n, (s.buf.read (a + i)).toNat * 2 ^ (8 * i) := by
  induction n with
  | zero => rfl
  | succ n ih =>
    have hpow : 256 ^ n = 2 ^ (8 * n) := by rw [Nat.pow_mul]
    rw [s.memRead_succ, leNat_append, ih, s.memRead_length, hpow, Finset.sum_range_succ]
    simp [leNat, Nat.mul_comm]

/-- Byte `i` of a value: each byte before it divides the value by 256 once. -/
theorem bytesLE_getElem? (n v i : Nat) (hi : i < n) :
    (bytesLE n v)[i]? = some (BitVec.ofNat 8 (v / 2 ^ (8 * i))) := by
  induction n generalizing v i with
  | zero => omega
  | succ n ih =>
    cases i with
    | zero => simp [bytesLE]
    | succ i =>
      have hdiv : v / 256 / 2 ^ (8 * i) = v / 2 ^ (8 * (i + 1)) := by
        rw [Nat.div_div_eq_div_mul, Nat.mul_add, Nat.add_comm, Nat.pow_add]
      rw [bytesLE, List.getElem?_cons_succ, ih _ _ (by omega), hdiv]

/-- Settles O24: one lemma per clause, the canonical form from `Buf.writeBytes_wf`. -/
theorem memWriteThenRead : Obligations.MemWriteThenRead :=
  ⟨fun m a x bs h => ⟨m.writeBytes_wf a bs h, m.read_writeBytes a x bs h⟩,
    fun s a n => ⟨s.memRead_length a n, s.memRead_getElem? a n⟩,
    State.memRead_writeBytes, State.leNat_memRead,
    fun n v => ⟨bytesLE_length n v, bytesLE_getElem? n v⟩⟩

end Sys2Proof.Machine
end

section
/-! PROOFS. What a step is, turn by turn: a host register access is one step (10_state.md R20, R22), and a word
placed by `withFetchWord` is run by the next one (log 2). -/

namespace Sys2Proof.Machine

/-- A step whose turn is a host action is that action. -/
theorem step_host {s : State} {act : HostAction} {rest : List Turn} (h : s.script = .host act :: rest) :
    step s = hostAct act { s with script := rest } := by
  simp only [step, takeTurn, h]

/-- Everything a step can answer with a next state, by the turn it takes. -/
theorem step_next {s t : State} (h : step s = .next t) :
    (s.nextTurn = .engine ∧ engineTurn s.popTurn = .next t) ∨
      (∃ act, s.nextTurn = .host act ∧ hostAct act s.popTurn = .next t) ∨
      (s.nextTurn = .reset ∧ t = s.popTurn.resetInput) ∨
      (∃ level, s.nextTurn = .capVec level ∧ t = { s.popTurn with capVec := level }) := by
  rw [step_eq] at h
  cases hturn : s.nextTurn with
  | engine => exact .inl ⟨rfl, by rwa [hturn] at h⟩
  | host act => exact .inr (.inl ⟨act, rfl, by rwa [hturn] at h⟩)
  | reset => rw [hturn] at h; cases h; exact .inr (.inr (.inl ⟨rfl, rfl⟩))
  | capVec level => rw [hturn] at h; cases h; exact .inr (.inr (.inr ⟨level, rfl, rfl⟩))

/-- An aligned offset of the block passes both access checks. -/
theorem register_access_ok (p : Params) {off : Nat} (hoff : off < 256) (halign : off % 4 = 0) :
    inBlock p (p.engineBase + off) = true ∧ alignedWord p (p.engineBase + off) 4 = true := by
  simp [inBlock, alignedWord, hoff, halign]

theorem hostAct_regRead (s : State) {off : Nat} (hoff : off < 256) (halign : off % 4 = 0) :
    hostAct (.regRead (s.params.engineBase + off) 4) s = .next { s with rdata := s.readRegister off } := by
  obtain ⟨hblock, hword⟩ := register_access_ok s.params hoff halign
  simp [hostAct, hblock, hword]

theorem hostAct_regWrite (s : State) (v : Word) {off : Nat} (hoff : off < 256) (halign : off % 4 = 0) :
    hostAct (.regWrite (s.params.engineBase + off) 4 v) s = .next (s.writeRegister off v) := by
  obtain ⟨hblock, hword⟩ := register_access_ok s.params hoff halign
  simp [hostAct, hblock, hword]

/-- Settles O27: the turn is a host action, and the access passes both checks. -/
theorem registerAccessIsOneStep : Obligations.RegisterAccessIsOneStep := by
  intro s off v rest hoff halign
  exact ⟨fun h => (step_host h).trans (hostAct_regRead { s with script := rest } hoff halign),
    fun h => (step_host h).trans (hostAct_regWrite { s with script := rest } v hoff halign)⟩

/-- `wr REG, v` is one step, the write of that register. -/
theorem step_wr {s : State} {reg : RegName} {v : Word} {rest : List Turn}
    (h : s.script = Asm.wr s.params reg v :: rest) :
    step s = .next ({ s with script := rest }.writeRegister reg.offset v) :=
  (registerAccessIsOneStep s reg.offset v rest (by cases reg <;> decide) (by cases reg <;> decide)).2 h

/-- The engine's turn on a legal word runs its command, then settles the host's breach. -/
theorem engineTurn_command {s : State} {r : Inflight} {i : Instr} (hr : s.inflight = some r)
    (hi : decode r.word = .command i) : engineTurn s = settle r.outRange (exec i s) := by
  simp only [engineTurn, hr, runWord, hi]

/-- After a command of a host that kept its duty there is nothing to settle. -/
theorem settle_exec_of_no_breach {s : State} (out : Range) (i : Instr) (h : s.breach = Breach.none) :
    settle out (exec i s) = exec i s := by
  cases he : exec i s with
  | next t =>
    obtain ⟨-, -, -, -, -, -, hbreach, -⟩ := exec_frame he
    rw [settle, State.settleBreach_none out (hbreach.trans h)]
  | fault e => rfl
  | refused e => rfl

theorem decodeTableWord_eq_some {nbits w : Nat} {i : Instr} (h : decodeTableWord nbits w = some i) :
    decode (BitVec.ofNat 32 (w % 2 ^ nbits)) = .command i := by
  unfold decodeTableWord at h
  split at h
  · next j hj => rw [hj, Option.some.inj h]
  · cases h

@[simp] theorem State.withFetchWord_nextTurn (s : State) (nbits w : Nat) :
    (s.withFetchWord nbits w).nextTurn = .engine := by
  unfold State.withFetchWord placeWord State.nextTurn
  cases s.script <;> rfl

@[simp] theorem State.withFetchWord_popTurn (s : State) (nbits w : Nat) :
    (s.withFetchWord nbits w).popTurn = s.issue (BitVec.ofNat 32 (w % 2 ^ nbits)) := by
  unfold State.withFetchWord placeWord State.popTurn
  cases hs : s.script <;> simp [State.issue, hs]

/-- Settles O5: the engine moves next, and the issue has just emptied the breach, so nothing is settled. -/
theorem placedWordRunsNext : Obligations.PlacedWordRunsNext := by
  intro s nbits w i h
  rw [step_eq, State.withFetchWord_nextTurn, State.withFetchWord_popTurn]
  exact (engineTurn_command (State.issue_inflight s _) (decodeTableWord_eq_some h)).trans
    (settle_exec_of_no_breach _ i (State.issue_breach s _))

end Sys2Proof.Machine
end

section
/-! PROOFS. The STATUS word: its bits, its fields, and the W1C write (10_state.md R27). -/

namespace Sys2Proof.Machine

/-- A bit of an append, seen from a word in which the append starts at bit `k`. -/
theorem getLsbD_append_sub {m n i k : Nat} (x : BitVec m) (y : BitVec n) (hn : 0 < n) :
    (x ++ y).getLsbD (i - k) = if i < k + n then y.getLsbD (i - k) else x.getLsbD (i - (k + n)) := by
  have hlt : i - k < n ↔ i < k + n := by omega
  rw [BitVec.getLsbD_append, Nat.sub_sub]
  simp only [hlt]

/-- The one bit of a Boolean field at bit `k`. -/
theorem ite_getLsbD_ofBool {i k : Nat} (b c : Bool) :
    (if i < k + 1 then (BitVec.ofBool b).getLsbD (i - k) else c) = if i < k + 1 then b else c := by
  split
  · rw [BitVec.getLsbD_ofBool, decide_eq_true (by omega), Bool.true_and]
  · rfl

/-- The bits of STATUS, field by field (10_state.md R27). -/
theorem State.statusWord_getLsbD (s : State) (i : Nat) :
    s.statusWord.getLsbD i =
      if i < 1 then s.busy
      else if i < 2 then s.status.done
      else if i < 3 then s.status.err
      else if i < 4 then s.status.ovr
      else if i < 8 then false
      else if i < 12 then s.status.errcode.code.getLsbD (i - 8)
      else if i < 16 then false
      else if i < 18 then s.status.backend.code.getLsbD (i - 16)
      else if i < 20 then false
      else if i < 24 then s.keys.validBits.getLsbD (i - 20)
      else false := by
  have hzero (n j : Nat) : (0 : BitVec n).getLsbD j = false := BitVec.getLsbD_zero
  change s.statusWord.getLsbD (i - 0) = _
  unfold State.statusWord
  simp only [↓getLsbD_append_sub, ite_getLsbD_ofBool, hzero, Nat.reduceAdd, Nat.reduceLT]

/-- The acknowledgement clears exactly the W1C bits written as 1: bits 0 to 3 one by one, and from bit 4 up
the mask `0xE` is 0 and the fields are those of before. -/
theorem State.acknowledge_statusWord (s : State) (v : Word) :
    (s.acknowledge v).statusWord = s.statusWord &&& ~~~(v &&& 0x0000000E) := by
  refine BitVec.eq_of_getLsbD_eq fun i hi => ?_
  have hmask : ∀ j < 32, 4 ≤ j → (0x0000000E : Word).getLsbD j = false := by decide
  rw [BitVec.getLsbD_and, BitVec.getLsbD_not, BitVec.getLsbD_and, State.statusWord_getLsbD,
    State.statusWord_getLsbD]
  obtain hlow | hhigh := Nat.lt_or_ge i 4
  · interval_cases i <;> simp [State.busy]
  · obtain ⟨h1, h2, h3, h4⟩ : ¬ i < 1 ∧ ¬ i < 2 ∧ ¬ i < 3 ∧ ¬ i < 4 := by omega
    simp only [hmask i hi hhigh, hi, h1, h2, h3, h4, if_false, decide_true, Bool.and_false, Bool.not_false,
      Bool.and_true, State.acknowledge_status, State.acknowledge_keys]

theorem State.statusWord_errcode (s : State) : s.statusWord.extractLsb' 8 4 = s.status.errcode.code := by
  refine BitVec.eq_of_getLsbD_eq fun i hi => ?_
  rw [BitVec.getLsbD_extractLsb', State.statusWord_getLsbD]
  interval_cases i <;> rfl

theorem State.statusWord_backend (s : State) : s.statusWord.extractLsb' 16 2 = s.status.backend.code := by
  refine BitVec.eq_of_getLsbD_eq fun i hi => ?_
  rw [BitVec.getLsbD_extractLsb', State.statusWord_getLsbD]
  interval_cases i <;> rfl

theorem State.statusWord_reserved (s : State) : s.statusWord &&& 0xFF0CF0F0 = 0 := by
  refine BitVec.eq_of_getLsbD_eq fun i hi => ?_
  rw [BitVec.getLsbD_and, State.statusWord_getLsbD]
  interval_cases i <;> simp

theorem ErrCode.code_le (e : ErrCode) : e.code.toNat ≤ 7 := by cases e <;> decide

theorem Backend.code_ne_three (b : Backend) : b.code ≠ 3 := by cases b <;> decide

theorem KeyStore.validBits_getLsbD (st : KeyStore) :
    st.validBits.getLsbD 0 = st.ks.valid ∧ st.validBits.getLsbD 1 = st.kt.valid ∧
      st.validBits.getLsbD 2 = st.km.valid ∧ st.validBits.getLsbD 3 = st.kn.valid := by
  simp only [KeyStore.validBits, BitVec.getLsbD_append, BitVec.getLsbD_ofBool]
  exact ⟨rfl, rfl, rfl, rfl⟩

/-- Settles O28: every field is read off `statusWord_getLsbD`. -/
theorem statusWordFields : Obligations.StatusWordFields := by
  refine ⟨⟨rfl, rfl, rfl, rfl, rfl, rfl, rfl, rfl⟩, ⟨rfl, rfl, rfl⟩, fun s => ?_⟩
  obtain ⟨hks, hkt, hkm, hkn⟩ := s.keys.validBits_getLsbD
  rw [s.statusWord_errcode, s.statusWord_backend]
  exact ⟨s.statusWord_getLsbD 0, s.statusWord_getLsbD 1, s.statusWord_getLsbD 2, s.statusWord_getLsbD 3,
    rfl, rfl, (s.statusWord_getLsbD 20).trans hks, (s.statusWord_getLsbD 21).trans hkt,
    (s.statusWord_getLsbD 22).trans hkm, (s.statusWord_getLsbD 23).trans hkn,
    s.statusWord_reserved, ErrCode.code_le _, Backend.code_ne_three _⟩

/-- Settles O29: the write is `State.acknowledge`, whose STATUS word is `acknowledge_statusWord`. -/
theorem statusWriteClearsWrittenOnes : Obligations.StatusWriteClearsWrittenOnes := by
  intro s v rest hidle hturn
  have hwrite : { s with script := rest }.writeStatus v = { s with script := rest }.acknowledge v :=
    if_neg (Bool.eq_false_iff.mp hidle)
  exact ⟨_, (step_wr hturn).trans (congrArg Host.Outcome.next hwrite), State.acknowledge_statusWord _ v, rfl⟩

end Sys2Proof.Machine
end

section
/-! PROOFS. The register map: what each offset reads as, and what a write to it stores (10_state.md R21 to
R26, R30). -/

namespace Sys2Proof.Machine

theorem State.cfgWord_eq (s : State) : s.cfgWord = s.rounds.setWidth 32 :=
  (BitVec.setWidth_eq_append (by decide)).symm

theorem State.capsWord_eq (s : State) : s.capsWord = if s.capVec = true then 1 else 0 := by
  unfold State.capsWord
  cases s.capVec <;> rfl

/-- The reserved offsets, and those past the block's registers, read 0. -/
theorem State.readRegister_reserved (s : State) {off : Nat} (h : 0x2C ≤ off) : s.readRegister off = 0 := by
  unfold State.readRegister
  split
  case h_12 => rfl
  all_goals omega

/-- Settles O26: CFG, CAPS and the reserved offsets by their lemmas, the rest as the map lists them. -/
theorem registerMapReads : Obligations.RegisterMapReads := fun s =>
  ⟨rfl, s.cfgWord_eq, rfl, rfl, rfl, rfl, rfl, rfl, rfl, s.capsWord_eq, rfl,
    fun _ h _ => s.readRegister_reserved h⟩

/-- An offset that is neither CFG, STATUS, CMD nor an operand register ignores writes. -/
theorem State.writeRegister_ignored (s : State) (v : Word) {off : Nat}
    (h : off = 0x00 ∨ off = 0x24 ∨ 0x28 ≤ off) : s.writeRegister off v = s := by
  unfold State.writeRegister
  split
  case h_9 => rfl
  all_goals omega

/-- CFG reads back bits [4:0] of what was written. -/
theorem State.readRegister_writeRegister_cfg (s : State) (v : Word) :
    (s.writeRegister 0x04 v).readRegister 0x04 = v &&& 0x1F := by
  have hmask : ∀ i < 32, (0x1F : Word).getLsbD i = decide (i < 5) := by decide
  have hcfg : (s.writeRegister 0x04 v).readRegister 0x04 = (v.setWidth 5).setWidth 32 := State.cfgWord_eq _
  refine hcfg.trans (BitVec.eq_of_getLsbD_eq fun i hi => ?_)
  rw [BitVec.getLsbD_and, hmask i hi, BitVec.getLsbD_setWidth, BitVec.getLsbD_setWidth, decide_eq_true hi,
    Bool.true_and, Bool.and_comm]

/-- The offsets of the operand registers (10_state.md R22). -/
def operandOffsets : List Nat := [0x10, 0x14, 0x18, 0x1C, 0x20]

/-- Changing the operand registers changes no other register. -/
theorem State.readRegister_of_not_operand (s : State) (o : Operands) {off : Nat} (h : off ∉ operandOffsets) :
    { s with ops := o }.readRegister off = s.readRegister off := by
  unfold State.readRegister
  split
  case h_5 | h_6 | h_7 | h_8 | h_9 => exact absurd (by decide) h
  all_goals rfl

/-- A write to an operand register is read back whole, and touches no other register. -/
theorem State.writeRegister_operand (s : State) (v : Word) {off : Nat} (h : off ∈ operandOffsets) :
    (s.writeRegister off v).readRegister off = v ∧
      (∀ off', off' ≠ off → (s.writeRegister off v).readRegister off' = s.readRegister off') ∧
      s.writeRegister off v = { s with ops := (s.writeRegister off v).ops } := by
  have hops : s.writeRegister off v = { s with ops := (s.writeRegister off v).ops } := by
    fin_cases h <;> rfl
  refine ⟨by fin_cases h <;> rfl, fun off' hne => ?_, hops⟩
  by_cases hop : off' ∈ operandOffsets
  · fin_cases h <;> fin_cases hop <;> first | rfl | exact absurd rfl hne
  · rw [hops, State.readRegister_of_not_operand _ _ hop]

/-- Settles O30, one lemma per kind of register. -/
theorem registerWritesStoreOrAreIgnored : Obligations.RegisterWritesStoreOrAreIgnored := fun s v =>
  ⟨rfl, s.readRegister_writeRegister_cfg v, fun _ => s.writeRegister_operand v,
    fun _ => s.writeRegister_ignored v⟩

end Sys2Proof.Machine
end

section
/-! PROOFS. A command reads only the in-flight record (10_state.md R33). -/

namespace Sys2Proof.Machine

/-- A change of the state that the checks do not see, and that commutes with raising an error and with the
effect, commutes with the command. -/
theorem runCommand_mapNext {checks : State → Inflight → List Check} {effect : State → Inflight → State}
    (f : State → State) (s : State) (hflight : (f s).inflight = s.inflight)
    (hchecks : ∀ r, checks (f s) r = checks s r) (hraise : ∀ e, (f s).raise e = f (s.raise e))
    (heffect : ∀ r, effect (f s) r = f (effect s r)) :
    runCommand checks effect (f s) = mapNext f (runCommand checks effect s) := by
  cases hr : s.inflight with
  | none => simp only [runCommand, hflight, hr, mapNext]
  | some r =>
    cases he : firstError (checks s r) with
    | none => simp only [runCommand, hflight, hr, hchecks, he, heffect, mapNext]
    | some e => simp only [runCommand, hflight, hr, hchecks, he, hraise, mapNext]

/-- The state with other live operand registers and CFG. -/
def State.withLive (o : Operands) (x : BitVec 5) (s : State) : State := { s with ops := o, rounds := x }

theorem State.finish_withLive (s : State) (out : Range) (bs : List Byte) (o : Operands) (x : BitVec 5) :
    (s.withLive o x).finish out bs = (s.finish out bs).withLive o x := rfl

theorem beforeOutput_withLive (i : Instr) (s : State) (o : Operands) (x : BitVec 5) :
    beforeOutput i (s.withLive o x) = (beforeOutput i s).withLive o x := by
  cases i <;> rfl

/-- No effect reads or writes the live operand registers or CFG. -/
theorem commandEffect_withLive (i : Instr) (s : State) (o : Operands) (x : BitVec 5) (r : Inflight) :
    commandEffect i (s.withLive o x) r = (commandEffect i s r).withLive o x := by
  by_cases hi : ∀ k, i ≠ .ldkey k
  · have hout : outputBytes i (s.withLive o x) r = outputBytes i s r := outputBytes_congr i r rfl rfl rfl
    rw [commandEffect_storing i hi, commandEffect_storing i hi, hout, beforeOutput_withLive,
      State.finish_withLive]
  · obtain ⟨k, rfl⟩ := not_forall_not.mp hi
    rfl

/-- Settles O22: the checks and the effect see the in-flight record only. -/
theorem commandsReadOnlyTheSnapshot : Obligations.CommandsReadOnlyTheSnapshot := by
  intro i s o x _
  rw [exec_eq_runCommand, exec_eq_runCommand]
  exact runCommand_mapNext (State.withLive o x) s rfl (fun _ => rfl) (fun _ => rfl)
    (commandEffect_withLive i s o x)

end Sys2Proof.Machine
end

section
/-! PROOFS. The key store has no read path (10_state.md R31). -/

namespace Sys2Proof.Machine

/-- KEYVALID depends on the valid bits of the keys only. -/
theorem KeyStore.validBits_congr {st st' : KeyStore} (h : ∀ k, st.valid k = st'.valid k) :
    st.validBits = st'.validBits := by
  have hks : st.ks.valid = st'.ks.valid := h .ks
  have hkt : st.kt.valid = st'.kt.valid := h .kt
  have hkm : st.km.valid = st'.km.valid := h .km
  have hkn : st.kn.valid = st'.kn.valid := h .kn
  simp only [KeyStore.validBits, hks, hkt, hkm, hkn]

/-- The state with another key store. -/
def State.withKeys (st : KeyStore) (s : State) : State := { s with keys := st }

/-- A register reads the same whatever the key bytes are. -/
theorem State.readRegister_withKeys (s : State) (st : KeyStore) (off : Nat)
    (h : ∀ k, st.valid k = s.keys.valid k) :
    (s.withKeys st).readRegister off = s.readRegister off := by
  have hstatus : (s.withKeys st).statusWord = s.statusWord := by
    rw [State.statusWord, State.statusWord, ← KeyStore.validBits_congr h]; rfl
  unfold State.readRegister
  split
  case h_3 => exact hstatus
  all_goals rfl

theorem State.writeStatus_withKeys (s : State) (st : KeyStore) (v : Word) :
    (s.withKeys st).writeStatus v = (s.writeStatus v).withKeys st := by
  unfold State.writeStatus; rw [apply_ite (State.withKeys st)]; rfl

theorem State.writeCmd_withKeys (s : State) (st : KeyStore) (w : Word) :
    (s.withKeys st).writeCmd w = (s.writeCmd w).withKeys st := by
  unfold State.writeCmd; rw [apply_ite (State.withKeys st)]; rfl

theorem State.hostBufRead_withKeys (s : State) (st : KeyStore) (a : Nat) :
    (s.withKeys st).hostBufRead a = (s.hostBufRead a).withKeys st := by
  unfold State.hostBufRead; rw [apply_ite (State.withKeys st)]; rfl

theorem State.hostBufWrite_withKeys (s : State) (st : KeyStore) (a : Nat) (b : Byte) :
    (s.withKeys st).hostBufWrite a b = (s.hostBufWrite a b).withKeys st := by
  unfold State.hostBufWrite; rw [apply_ite (State.withKeys st)]; rfl

/-- A register write neither looks at the keys nor touches them. -/
theorem State.writeRegister_withKeys (s : State) (st : KeyStore) (off : Nat) (v : Word) :
    (s.withKeys st).writeRegister off v = (s.writeRegister off v).withKeys st := by
  unfold State.writeRegister
  split
  case h_2 => exact s.writeStatus_withKeys st v
  case h_3 => exact s.writeCmd_withKeys st v
  all_goals rfl

/-- A change of the state that keeps the parameters, and that commutes with every register access and every
access to BUF, commutes with every host action. -/
theorem hostAct_mapNext (f : State → State) (s : State) (act : HostAction)
    (hparams : (f s).params = s.params)
    (hread : ∀ off, { f s with rdata := (f s).readRegister off } = f { s with rdata := s.readRegister off })
    (hwrite : ∀ off v, (f s).writeRegister off v = f (s.writeRegister off v))
    (hbufRead : ∀ a, (f s).hostBufRead a = f (s.hostBufRead a))
    (hbufWrite : ∀ a b, (f s).hostBufWrite a b = f (s.hostBufWrite a b)) :
    hostAct act (f s) = mapNext f (hostAct act s) := by
  cases act with
  | regWrite addr width v =>
    simp only [hostAct, hparams, hwrite]
    split
    · rfl
    · split <;> rfl
  | regRead addr width =>
    simp only [hostAct, hparams] at hread ⊢
    split
    · rfl
    · split
      · rfl
      · exact congrArg Host.Outcome.next (hread _)
  | bufWrite a b =>
    simp only [hostAct, hparams, hbufWrite]
    split <;> rfl
  | bufRead a =>
    simp only [hostAct, hparams, hbufRead]
    split <;> rfl

/-- Settles O32: only STATUS shows anything of the keys, and of them the valid bits alone. -/
theorem keysHaveNoReadPath : Obligations.KeysHaveNoReadPath := by
  intro s st act hvalid
  have hread (off : Nat) : { s.withKeys st with rdata := (s.withKeys st).readRegister off } =
      { s with rdata := s.readRegister off }.withKeys st := by
    rw [s.readRegister_withKeys st off hvalid]; rfl
  exact hostAct_mapNext (State.withKeys st) s act rfl hread (s.writeRegister_withKeys st)
    (s.hostBufRead_withKeys st) (s.hostBufWrite_withKeys st)

end Sys2Proof.Machine
end

section
/-! PROOFS. What a step can do to the key store and the backend latch (10_state.md R31, R32). -/

namespace Sys2Proof.Machine

@[simp] theorem State.settleBreach_keys (s : State) (out : Range) : (s.settleBreach out).keys = s.keys := by
  obtain ⟨-, -, -, h, -⟩ := s.settleBreach_frame out
  exact h

@[simp] theorem State.settleBreach_backend (s : State) (out : Range) :
    (s.settleBreach out).status.backend = s.status.backend := by
  obtain ⟨-, -, -, -, -, -, -, -, -, -, h, -⟩ := s.settleBreach_frame out
  exact h

/-- No register write changes a key register or the backend latch. -/
theorem writeRegister_keeps_keys_backend (s : State) (off : Nat) (v : Word) :
    (s.writeRegister off v).keys = s.keys ∧
      (s.writeRegister off v).status.backend = s.status.backend := by
  obtain h | ⟨-, h⟩ | ⟨-, h⟩ | ⟨o, h⟩ := writeRegister_cases s off v <;> rw [h]
  · exact ⟨rfl, rfl⟩
  · unfold State.writeStatus; split <;> exact ⟨rfl, rfl⟩
  · unfold State.writeCmd; split <;> exact ⟨rfl, rfl⟩
  · exact ⟨rfl, rfl⟩

/-- No host action changes a key register or the backend latch. -/
theorem hostAct_keeps_keys_backend {act : HostAction} {s t : State} (h : hostAct act s = .next t) :
    t.keys = s.keys ∧ t.status.backend = s.status.backend := by
  obtain ⟨-, ⟨addr, -, v, -, rfl⟩ | ⟨-, -, -, rfl⟩ | ⟨a, b, -, rfl⟩ | ⟨a, -, rfl⟩⟩ := hostAct_next h
  · exact writeRegister_keeps_keys_backend s _ v
  · exact ⟨rfl, rfl⟩
  · unfold State.hostBufWrite; split <;> exact ⟨rfl, rfl⟩
  · unfold State.hostBufRead; split <;> exact ⟨rfl, rfl⟩

theorem commandEffect_keys (i : Instr) (s : State) (r : Inflight) (hi : ∀ k, i ≠ .ldkey k) :
    (commandEffect i s r).keys = s.keys := by
  rw [commandEffect_storing i hi, State.finish_keys]
  cases i <;> rfl

/-- A universal-hash command takes the latch; no other command touches it. -/
theorem commandEffect_backend (i : Instr) (s : State) (r : Inflight) :
    (commandEffect i s r).status.backend =
      if i = .nhChunk ∨ i = .nhMsg ∨ i = .hashA then s.backendAfterHash else s.status.backend := by
  cases i with
  | ldkey k => rfl
  | _ =>
    rw [commandEffect_storing _ (by simp)]
    simp [beforeOutput]

theorem State.backendAfterHash_of_selected {s : State} (h : s.status.backend ≠ .notSelected) :
    s.backendAfterHash = s.status.backend := if_neg h

/-- A latch that is taken stays, whatever command runs and however it ends. -/
theorem exec_keeps_selected_backend {i : Instr} {s t : State} (h : exec i s = .next t)
    (hb : s.status.backend ≠ .notSelected) : t.status.backend = s.status.backend := by
  obtain ⟨r, -, ⟨e, -, -, rfl⟩ | ⟨-, rfl⟩⟩ := exec_next h
  · rfl
  · rw [commandEffect_backend, State.backendAfterHash_of_selected hb, ite_self]

theorem engineTurn_keeps_selected_backend {s t : State} (h : engineTurn s = .next t)
    (hb : s.status.backend ≠ .notSelected) : t.status.backend = s.status.backend := by
  obtain ⟨-, rfl⟩ | ⟨r, -, ⟨i, u, -, hu, rfl⟩ | ⟨-, -, rfl⟩⟩ := engineTurn_next h
  · rfl
  · rw [State.settleBreach_backend, exec_keeps_selected_backend hu hb]
  · rw [State.settleBreach_backend, State.raise_status]

theorem step_keeps_selected_backend {s t : State} (h : step s = .next t)
    (hb : s.status.backend ≠ .notSelected) (hreset : s.nextTurn ≠ .reset) :
    t.status.backend = s.status.backend := by
  obtain ⟨-, h⟩ | ⟨act, -, h⟩ | ⟨h, -⟩ | ⟨level, -, rfl⟩ := step_next h
  · exact engineTurn_keeps_selected_backend (s := s.popTurn) h hb
  · exact (hostAct_keeps_keys_backend h).2
  · exact absurd h hreset
  · rfl

/-- While the latch is not taken, only a universal-hash command that succeeds takes it. -/
theorem exec_takes_backend {i : Instr} {s t : State} (h : exec i s = .next t)
    (hb : s.status.backend = .notSelected) :
    t.status.backend =
      if (i = .nhChunk ∨ i = .nhMsg ∨ i = .hashA) ∧ t.status.errcode = .none then
        (if s.capVec = true then .vector else .portable)
      else .notSelected := by
  obtain ⟨r, -, ⟨e, he, -, rfl⟩ | ⟨-, rfl⟩⟩ := exec_next h
  · rw [if_neg fun hc => he hc.2]
    exact hb
  · obtain ⟨-, -, -, -, herr, -⟩ := commandEffect_completes i s r
    rw [commandEffect_backend, State.backendAfterHash, if_pos hb, hb]
    simp only [herr, and_true]

/-- Settles O37. The engine is the only turn but reset that reaches the latch; `exec_next` says how. -/
theorem backendLatchIsTakenOnce : Obligations.BackendLatchIsTakenOnce :=
  ⟨fun _ _ => step_keeps_selected_backend, fun _ _ _ => exec_takes_backend⟩

/-- A command that changes a key register is the LDKEY of that key, and leaves it valid. -/
theorem exec_changes_key {i : Instr} {s t : State} {k : KeySel} (h : exec i s = .next t)
    (hk : t.keys.get k ≠ s.keys.get k) : i = .ldkey k ∧ (t.keys.get k).valid = true := by
  obtain ⟨r, -, ⟨e, -, -, rfl⟩ | ⟨-, rfl⟩⟩ := exec_next h
  · exact absurd rfl hk
  · by_cases hi : ∀ j, i ≠ .ldkey j
    · exact absurd (by rw [commandEffect_keys i s r hi]) hk
    · obtain ⟨j, rfl⟩ := not_forall_not.mp hi
      have hload : (commandEffect (.ldkey j) s r).keys =
          s.keys.load j (s.memReadVec r.ops.src.toNat j.size) := rfl
      rw [hload] at hk ⊢
      by_cases hkj : k = j
      · subst hkj
        exact ⟨rfl, by rw [KeyStore.get_load]⟩
      · exact absurd (KeyStore.get_load_ne _ _ _ _ hkj) hk

/-- The engine changes a key register only by the LDKEY in flight. -/
theorem engineTurn_changes_key {s t : State} {k : KeySel} (h : engineTurn s = .next t)
    (hk : t.keys.get k ≠ s.keys.get k) :
    (t.keys.get k).valid = true ∧ ∃ r, s.inflight = some r ∧ decode r.word = .command (.ldkey k) := by
  obtain ⟨-, rfl⟩ | ⟨r, hr, ⟨i, u, hi, hu, rfl⟩ | ⟨-, -, rfl⟩⟩ := engineTurn_next h
  · exact absurd rfl hk
  · rw [State.settleBreach_keys] at hk ⊢
    obtain ⟨rfl, hvalid⟩ := exec_changes_key hu hk
    exact ⟨hvalid, r, hr, hi⟩
  · rw [State.settleBreach_keys] at hk
    exact absurd rfl hk

/-- Settles O38, turn by turn: a host action and a CAP_VEC level keep every key. -/
theorem onlyLdkeyWritesAKey : Obligations.OnlyLdkeyWritesAKey := by
  intro s t k h hk
  obtain ⟨hturn, h⟩ | ⟨act, -, h⟩ | ⟨hturn, -⟩ | ⟨level, -, rfl⟩ := step_next h
  · exact .inr ⟨hturn, engineTurn_changes_key (s := s.popTurn) h hk⟩
  · exact absurd (by rw [(hostAct_keeps_keys_backend h).1]; rfl) hk
  · exact .inl hturn
  · exact absurd rfl hk

end Sys2Proof.Machine
end

section
/-! PROOFS. What the invariant of the block rests on, operation by operation, and that every step keeps it
(10_state.md R29, R32; 20_memory.md R35; 70_reset_and_hazards.md R105). -/

namespace Sys2Proof.Machine

/-- A command in flight is what BUSY = 1 means (log 12). -/
theorem State.inflight_ne_none_of_busy {s : State} (h : s.busy = true) : s.inflight ≠ none :=
  Option.isSome_iff_ne_none.mp h

/-- What holds when no check of a legal word fails (60_exceptions.md R86). -/
theorem commandChecks_pass {i : Instr} {s : State} {r : Inflight}
    (h : firstError (commandChecks i s r) = none) :
    badRounds i r.rounds = false ∧ badKeyLen i r.ops = false ∧ badLength i r.ops = false ∧
      badRange i s.params r.ops = false ∧ badOverlap i r.ops = false ∧ keyMissing i s.keys = false := by
  simpa [commandChecks] using firstError_none h

/-- A command that passes its checks has an output range inside BUF (20_memory.md R37). -/
theorem outRange_inside_of_pass {i : Instr} {s : State} {r : Inflight}
    (h : firstError (commandChecks i s r) = none) :
    (outRange i r.ops).start + (outRange i r.ops).len ≤ s.params.bufSize := by
  obtain ⟨-, -, -, hrange, -, -⟩ := commandChecks_pass h
  simp only [badRange, Bool.not_eq_false', Bool.and_eq_true] at hrange
  exact of_decide_eq_true hrange.1

/-- A command that passes its checks has every key it reads (60_exceptions.md R85, code 7). -/
theorem keys_loaded_of_pass {i : Instr} {s : State} {r : Inflight}
    (h : firstError (commandChecks i s r) = none) : ∀ k ∈ keysRead i, s.keys.valid k = true := by
  obtain ⟨-, -, -, -, -, hkeys⟩ := commandChecks_pass h
  simpa [keyMissing] using hkeys

/-- No command clears a valid bit. -/
theorem commandEffect_keeps_valid (i : Instr) (s : State) (r : Inflight) {k : KeySel}
    (h : s.keys.valid k = true) : (commandEffect i s r).keys.valid k = true := by
  by_cases hi : ∀ j, i ≠ .ldkey j
  · rwa [commandEffect_keys i s r hi]
  · obtain ⟨j, rfl⟩ := not_forall_not.mp hi
    exact KeyStore.valid_load _ _ _ _ h

/-- A universal-hash command reads KN (42_nh.md R72, R73; 43_combiner.md R80). -/
theorem kn_mem_keysRead {i : Instr} (h : i = .nhChunk ∨ i = .nhMsg ∨ i = .hashA) : .kn ∈ keysRead i := by
  rcases h with rfl | rfl | rfl <;> decide

/-- An error keeps the invariant, but for the breach, which is still to be settled: so the record is put
back in flight. -/
theorem State.Inv.raise {s : State} (h : s.Inv) (e : ErrCode) (r : Inflight) :
    State.Inv { s.raise e with inflight := some r } :=
  { h with
    outLenFits := Nat.zero_le _
    errorWritesNothing := fun _ => rfl
    idleNoBreach := nofun }

/-- A success keeps the invariant, but for the breach. -/
theorem State.Inv.commandEffect {i : Instr} {s : State} {r : Inflight} (h : s.Inv)
    (hpass : firstError (commandChecks i s r) = none) :
    State.Inv { commandEffect i s r with inflight := some r } := by
  obtain ⟨-, -, hparams, -, -, -, hbreach, -⟩ := commandEffect_frame i s r
  obtain ⟨-, -, -, -, herr, houtLen⟩ := commandEffect_completes i s r
  have hinside := outRange_inside_of_pass hpass
  refine ⟨?_, ?_, ?_, fun hne => absurd herr hne, ?_, nofun, ?_⟩
  · rw [commandEffect_buf]
    exact Buf.writeBytes_wf _ _ _ h.bufCanonical
  · intro c hc
    rw [commandEffect_buf] at hc
    rw [hparams]
    rcases Buf.mem_writeBytes _ _ _ _ hc with hold | ⟨-, hnew⟩
    · exact h.bufInside c hold
    · rw [outputBytes_length] at hnew
      exact Nat.lt_of_lt_of_le hnew hinside
  · rw [houtLen, hparams, BitVec.toNat_ofNat]
    exact (Nat.mod_le _ _).trans ((Nat.le_add_left _ _).trans hinside)
  · intro hselected
    refine commandEffect_keeps_valid i s r (k := .kn) ?_
    rw [commandEffect_backend] at hselected
    split at hselected
    · next hhash => exact keys_loaded_of_pass hpass _ (kn_mem_keysRead hhash)
    · exact h.backendNeedsKn hselected
  · rw [hbreach, hparams]
    exact h.touchedInside

/-- A command keeps the invariant, but for the breach. -/
theorem State.Inv.exec {i : Instr} {s u : State} (h : s.Inv) (hu : exec i s = .next u) :
    ∃ r, State.Inv { u with inflight := some r } := by
  obtain ⟨r, -, ⟨e, -, -, rfl⟩ | ⟨hpass, rfl⟩⟩ := exec_next hu
  · exact ⟨r, h.raise e r⟩
  · exact ⟨r, h.commandEffect hpass⟩

/-- What a breach leaves unspecified lies in BUF. -/
theorem Breach.unspecified_inside {b : Breach} {p : Params} (out : Range)
    (h : ∀ a ∈ b.touched, a < p.bufSize) : ∀ a ∈ b.unspecified p out, a < p.bufSize := by
  intro a ha
  unfold Breach.unspecified at ha
  split at ha
  · cases ha
  · rcases List.mem_append.mp ha with hout | htouched
    · exact ((Range.mem_addressesIn _ _ _).mp hout).2
    · exact h a htouched

/-- Settling the breach gives the whole invariant. -/
theorem State.Inv.settleBreach {u : State} {r : Inflight} (h : State.Inv { u with inflight := some r })
    (out : Range) : (u.settleBreach out).Inv := by
  by_cases hnone : u.breach = Breach.none
  · rw [State.settleBreach_none out hnone]
    exact { h with idleNoBreach := fun _ => hnone }
  · obtain ⟨-, -, -, -, -, -, -, -, -, herr, hbackend, hbreach⟩ := u.settleBreach_frame out
    have hopen := State.settleBreach_open out hnone
    rw [hopen] at herr hbackend ⊢
    refine
      { h with
        bufCanonical := Buf.free_wf _ _ _ h.bufCanonical
        bufInside := fun c hc => ?_
        errorWritesNothing := fun hne => h.errorWritesNothing (herr ▸ hne)
        backendNeedsKn := fun hne => h.backendNeedsKn (hbackend ▸ hne)
        idleNoBreach := fun _ => rfl
        touchedInside := nofun }
    rcases Buf.mem_free _ _ _ _ hc with hold | hnew
    · exact h.bufInside c hold
    · exact Breach.unspecified_inside out h.touchedInside _ hnew

theorem State.Inv.engineTurn {s t : State} (h : s.Inv) (ht : engineTurn s = .next t) : t.Inv := by
  obtain ⟨-, rfl⟩ | ⟨r, -, ⟨i, u, -, hu, rfl⟩ | ⟨-, -, rfl⟩⟩ := engineTurn_next ht
  · exact h
  · obtain ⟨r', hu⟩ := h.exec hu
    exact hu.settleBreach _
  · exact (h.raise .illegalCmd r).settleBreach _

theorem State.Inv.writeStatus {s : State} (h : s.Inv) (v : Word) : (s.writeStatus v).Inv := by
  unfold State.writeStatus
  split
  · next hbusy =>
    exact { h with idleNoBreach := fun hidle => absurd hidle (State.inflight_ne_none_of_busy hbusy) }
  · exact { h with }

theorem State.Inv.writeCmd {s : State} (h : s.Inv) (w : Word) : (s.writeCmd w).Inv := by
  unfold State.writeCmd
  split
  · exact { h with }
  · exact { h with idleNoBreach := nofun, touchedInside := nofun }

theorem State.Inv.writeRegister {s : State} (h : s.Inv) (off : Nat) (v : Word) :
    (s.writeRegister off v).Inv := by
  obtain hw | ⟨-, hw⟩ | ⟨-, hw⟩ | ⟨o, hw⟩ := writeRegister_cases s off v <;> rw [hw]
  · exact { h with }
  · exact h.writeStatus v
  · exact h.writeCmd v
  · exact { h with }

theorem State.Inv.hostBufWrite {s : State} (h : s.Inv) {a : Nat} (b : Byte) (ha : a < s.params.bufSize) :
    (s.hostBufWrite a b).Inv := by
  unfold State.hostBufWrite
  split
  · next hbusy =>
    refine
      { h with
        idleNoBreach := fun hidle => absurd hidle (State.inflight_ne_none_of_busy hbusy)
        touchedInside := fun x hx => ?_ }
    rcases List.mem_insert_iff.mp hx with rfl | hx
    · exact ha
    · exact h.touchedInside x hx
  · refine
      { h with
        bufCanonical := Buf.write_wf _ _ _ h.bufCanonical
        bufInside := fun c hc => ?_ }
    rcases mem_cellsSet _ _ _ _ hc with rfl | hc
    · exact ha
    · exact h.bufInside c hc

theorem State.Inv.hostBufRead {s : State} (h : s.Inv) (a : Nat) : (s.hostBufRead a).Inv := by
  unfold State.hostBufRead
  split <;> exact { h with }

theorem State.Inv.hostAct {s t : State} {act : HostAction} (h : s.Inv) (ht : hostAct act s = .next t) :
    t.Inv := by
  obtain ⟨hwf, ⟨_, _, v, -, rfl⟩ | ⟨-, -, -, rfl⟩ | ⟨a, b, rfl, rfl⟩ | ⟨a, -, rfl⟩⟩ := hostAct_next ht
  · exact h.writeRegister _ v
  · exact { h with }
  · exact h.hostBufWrite b (of_decide_eq_true hwf)
  · exact h.hostBufRead a

/-- The reset input gives the invariant, whatever was before. -/
theorem State.resetInput_inv (s : State) : s.resetInput.Inv where
  bufCanonical := .nil
  bufInside := nofun
  outLenFits := Nat.zero_le _
  errorWritesNothing := fun _ => rfl
  backendNeedsKn := fun hne => absurd rfl hne
  idleNoBreach := fun _ => rfl
  touchedInside := nofun

/-- Settles O36, turn by turn. -/
theorem stepKeepsTheInvariant : Obligations.StepKeepsTheInvariant := by
  intro s t h ht
  have hpop : s.popTurn.Inv := { h with }
  obtain ⟨-, ht⟩ | ⟨act, -, ht⟩ | ⟨-, rfl⟩ | ⟨level, -, rfl⟩ := step_next ht
  · exact hpop.engineTurn ht
  · exact hpop.hostAct ht
  · exact s.popTurn.resetInput_inv
  · exact { hpop with }

end Sys2Proof.Machine
end

section
/-! PROOFS. Which turns stop the machine, and the host port to BUF, idle and busy (20_memory.md R36, R40, R44;
logs 9 and 13 to 15). -/

namespace Sys2Proof.Machine

/-- A host action is stopped exactly when it is ill formed. -/
theorem hostAct_answers_iff (act : HostAction) (s : State) :
    (∃ t, hostAct act s = .next t) ↔ act.wellFormed s.params = true :=
  ⟨fun ⟨_, h⟩ => (hostAct_next h).1, hostAct_total⟩

/-- Settles O31, turn by turn: only a host action can be stopped. -/
theorem stepStopsExactlyOnIllFormedTurns : Obligations.StepStopsExactlyOnIllFormedTurns := by
  intro s
  rw [step_eq]
  cases s.nextTurn with
  | host act => exact hostAct_answers_iff act s.popTurn
  | engine => exact iff_of_true (engineTurn_total s.popTurn) rfl
  | reset => exact iff_of_true ⟨_, rfl⟩ rfl
  | capVec level => exact iff_of_true ⟨_, rfl⟩ rfl

/-- A byte of BUF written by the host, in one step. -/
theorem step_bufWrite {s : State} {a : Nat} {b : Byte} {rest : List Turn} (ha : a < s.params.bufSize)
    (h : s.script = .host (.bufWrite a b) :: rest) :
    step s = .next ({ s with script := rest }.hostBufWrite a b) :=
  (step_host h).trans (if_pos ha)

/-- A byte of BUF read by the host, in one step. -/
theorem step_bufRead {s : State} {a : Nat} {rest : List Turn} (ha : a < s.params.bufSize)
    (h : s.script = .host (.bufRead a) :: rest) :
    step s = .next ({ s with script := rest }.hostBufRead a) :=
  (step_host h).trans (if_pos ha)

theorem State.hostBufWrite_idle {s : State} (a : Nat) (b : Byte) (h : s.busy = false) :
    s.hostBufWrite a b = { s with buf := s.buf.write a b } :=
  if_neg (Bool.eq_false_iff.mp h)

theorem State.hostBufWrite_busy {s : State} (a : Nat) (b : Byte) (h : s.busy = true) :
    s.hostBufWrite a b = { s with breach := { s.breach with touched := s.breach.touched.insert a } } :=
  if_pos h

/-- With no command in flight every byte of BUF can be relied on. -/
theorem State.uncertain_idle {s : State} (a : Nat) (h : s.busy = false) : s.uncertain a = false := by
  have hnone : s.inflight = none := Option.not_isSome_iff_eq_none.mp (Bool.eq_false_iff.mp h)
  simp only [State.uncertain, hnone]

theorem State.hostBufRead_idle {s : State} (a : Nat) (h : s.busy = false) :
    s.hostBufRead a = { s with rdata := (s.buf.read a).setWidth 32 } :=
  if_neg (Bool.eq_false_iff.mp (s.uncertain_idle a h))

/-- Settles O25: idle, the write is one byte of BUF and the read sees BUF itself. -/
theorem hostPortReadsWhatItWrote : Obligations.HostPortReadsWhatItWrote := by
  intro s a b rest hidle hwf ha
  refine ⟨fun hturn => ?_, fun hturn => ?_⟩
  · have hread (x : Nat) := s.buf.read_write a x b hwf
    rw [step_bufWrite ha hturn, State.hostBufWrite_idle (s := { s with script := rest }) a b hidle]
    exact ⟨_, rfl, (hread a).trans (if_pos rfl), fun x hx => (hread x).trans (if_neg hx), rfl⟩
  · rw [step_bufRead ha hturn, State.hostBufRead_idle (s := { s with script := rest }) a hidle]

/-- Settles O57: busy, the write only notes its address. -/
theorem bufWriteWhileBusyIsNoted : Obligations.BufWriteWhileBusyIsNoted := by
  intro s a b rest hbusy ha hturn
  rw [step_bufWrite ha hturn, State.hostBufWrite_busy (s := { s with script := rest }) a b hbusy]
  exact ⟨_, rfl, rfl, fun x => List.mem_insert_iff, rfl, rfl⟩

end Sys2Proof.Machine
end

section
/-! PROOFS. A host write to CFG or an operand register commutes with the completion (20_memory.md R44;
70_reset_and_hazards.md R103, R105). -/

namespace Sys2Proof.Machine

/-- The engine's turn on an illegal word raises ILLEGAL_CMD, then settles the host's breach. -/
theorem engineTurn_illegal {s : State} {r : Inflight} {why : DecodeError} (hr : s.inflight = some r)
    (hw : decode r.word = .illegal why) :
    engineTurn s = .next ((s.raise .illegalCmd).settleBreach r.outRange) := by
  have hraise : execIllegal s = .next (s.raise .illegalCmd) := runCommand_error hr rfl
  simp only [engineTurn, hr, runWord, hw, hraise, settle]

/-- A change of the state that no command sees, and that commutes with ILLEGAL_CMD and with settling a breach,
commutes with the engine's turn. -/
theorem engineTurn_mapNext (f : State → State) (s : State) (hflight : (f s).inflight = s.inflight)
    (hexec : ∀ i, s.busy = true → exec i (f s) = mapNext f (exec i s))
    (hraise : (f s).raise .illegalCmd = f (s.raise .illegalCmd))
    (hsettle : ∀ t out, (f t).settleBreach out = f (t.settleBreach out)) :
    engineTurn (f s) = mapNext f (engineTurn s) := by
  cases hr : s.inflight with
  | none => simp only [engineTurn, hflight, hr, mapNext]
  | some r =>
    cases hw : decode r.word with
    | command i =>
      obtain ⟨u, hu⟩ := exec_total i hr
      have hbusy : s.busy = true := by rw [State.busy, hr]; rfl
      have hfu : exec i (f s) = .next (f u) := by rw [hexec i hbusy, hu]; rfl
      rw [engineTurn_command (hflight.trans hr) hw, engineTurn_command hr hw, hfu, hu]
      exact congrArg Host.Outcome.next (hsettle u _)
    | illegal why =>
      rw [engineTurn_illegal (hflight.trans hr) hw, engineTurn_illegal hr hw, hraise, hsettle]
      rfl

/-- The state with other turns waiting. -/
def State.withScript (turns : List Turn) (s : State) : State := { s with script := turns }

theorem State.withScript_withScript (s : State) (turns turns' : List Turn) :
    (s.withScript turns).withScript turns' = s.withScript turns' := rfl

theorem State.settleBreach_withLive (s : State) (out : Range) (o : Operands) (x : BitVec 5) :
    (s.withLive o x).settleBreach out = (s.settleBreach out).withLive o x := by
  unfold State.settleBreach; rw [apply_ite (State.withLive o x)]; rfl

theorem State.settleBreach_withScript (s : State) (out : Range) (turns : List Turn) :
    (s.withScript turns).settleBreach out = (s.settleBreach out).withScript turns := by
  unfold State.settleBreach; rw [apply_ite (State.withScript turns)]; rfl

theorem beforeOutput_withScript (i : Instr) (s : State) (turns : List Turn) :
    beforeOutput i (s.withScript turns) = (beforeOutput i s).withScript turns := by
  cases i <;> rfl

/-- No effect looks at the turns that wait. -/
theorem commandEffect_withScript (i : Instr) (s : State) (turns : List Turn) (r : Inflight) :
    commandEffect i (s.withScript turns) r = (commandEffect i s r).withScript turns := by
  by_cases hi : ∀ k, i ≠ .ldkey k
  · have hout : outputBytes i (s.withScript turns) r = outputBytes i s r := outputBytes_congr i r rfl rfl rfl
    rw [commandEffect_storing i hi, commandEffect_storing i hi, hout, beforeOutput_withScript]
    rfl
  · obtain ⟨k, rfl⟩ := not_forall_not.mp hi
    rfl

theorem exec_withScript (i : Instr) (s : State) (turns : List Turn) :
    exec i (s.withScript turns) = mapNext (State.withScript turns) (exec i s) := by
  rw [exec_eq_runCommand, exec_eq_runCommand]
  exact runCommand_mapNext (State.withScript turns) s rfl (fun _ => rfl) (fun _ => rfl)
    (commandEffect_withScript i s turns)

/-- The completion does not look at the turns that wait after it. -/
theorem engineTurn_withScript (s : State) (turns : List Turn) :
    engineTurn (s.withScript turns) = mapNext (State.withScript turns) (engineTurn s) :=
  engineTurn_mapNext (State.withScript turns) s rfl (fun i _ => exec_withScript i s turns) rfl
    fun t out => t.settleBreach_withScript out turns

/-- The completion does not look at the live operand registers and CFG (10_state.md R33). -/
theorem engineTurn_withLive (s : State) (o : Operands) (x : BitVec 5) :
    engineTurn (s.withLive o x) = mapNext (State.withLive o x) (engineTurn s) :=
  engineTurn_mapNext (State.withLive o x) s rfl (fun i => commandsReadOnlyTheSnapshot i s o x) rfl
    fun t out => t.settleBreach_withLive out o x

/-- The completion changes neither the live registers nor what surrounds the block. -/
theorem engineTurn_frame {s t : State} (h : engineTurn s = .next t) :
    t.rounds = s.rounds ∧ t.ops = s.ops ∧ t.params = s.params ∧ t.script = s.script := by
  obtain ⟨-, rfl⟩ | ⟨r, -, ⟨i, u, -, hu, rfl⟩ | ⟨-, -, rfl⟩⟩ := engineTurn_next h
  · exact ⟨rfl, rfl, rfl, rfl⟩
  · obtain ⟨hrounds, hops, -, -, -, hparams, -, hscript, -⟩ := u.settleBreach_frame r.outRange
    obtain ⟨hrounds', hops', hparams', -, hscript', -⟩ := exec_frame hu
    exact ⟨hrounds.trans hrounds', hops.trans hops', hparams.trans hparams', hscript.trans hscript'⟩
  · obtain ⟨hrounds, hops, -, -, -, hparams, -, hscript, -⟩ :=
      (s.raise .illegalCmd).settleBreach_frame r.outRange
    exact ⟨hrounds, hops, hparams, hscript⟩

/-- A write to CFG or an operand register replaces the live registers, by values that depend on them alone. -/
theorem writeRegister_live {reg : RegName} (v : Word)
    (h : reg = .cfg ∨ reg = .src ∨ reg = .srcLen ∨ reg = .aux ∨ reg = .auxLen ∨ reg = .dst) :
    ∃ (o : Operands → Operands) (x : BitVec 5 → BitVec 5), ∀ s : State,
      s.writeRegister reg.offset v = s.withLive (o s.ops) (x s.rounds) := by
  rcases h with rfl | rfl | rfl | rfl | rfl | rfl
  · exact ⟨id, fun _ => v.extractLsb' 0 5, fun _ => rfl⟩
  · exact ⟨fun o => { o with src := v }, id, fun _ => rfl⟩
  · exact ⟨fun o => { o with srcLen := v }, id, fun _ => rfl⟩
  · exact ⟨fun o => { o with aux := v }, id, fun _ => rfl⟩
  · exact ⟨fun o => { o with auxLen := v }, id, fun _ => rfl⟩
  · exact ⟨fun o => { o with dst := v }, id, fun _ => rfl⟩

/-- A step whose turn is the engine's is the engine's turn. -/
theorem step_engine {s : State} {rest : List Turn} (h : s.script = .engine :: rest) :
    step s = engineTurn { s with script := rest } := by
  simp only [step, takeTurn, h]

/-- Two steps, one after the other. -/
theorem run_two {s u t : State} (h : step s = .next u) (h' : step u = .next t) :
    core.run 2 s = .next t := by
  have hs : core.step s = .next u := h
  have hu : core.step u = .next t := h'
  simp only [Host.Core.run, hs, hu]

/-- Settles O23: the write replaces the live registers, which the completion neither reads nor changes. -/
theorem operandWriteCommutesWithCompletion : Obligations.OperandWriteCommutesWithCompletion := by
  intro s reg v _ hreg
  obtain ⟨o, x, hlive⟩ := writeRegister_live v hreg
  obtain ⟨t, ht⟩ := engineTurn_total (s.withScript [])
  obtain ⟨hrounds, hops, hparams, hscript⟩ := engineTurn_frame ht
  have hempty : t.withScript [] = t := by
    rw [← show t.script = [] from hscript]; rfl
  have hwriteFirst : engineTurn ((s.withScript []).withLive (o s.ops) (x s.rounds)) =
      .next (t.withLive (o s.ops) (x s.rounds)) := by
    rw [engineTurn_withLive, ht]; rfl
  have hengineFirst : engineTurn (s.withScript [Asm.wr s.params reg v]) =
      .next (t.withScript [Asm.wr s.params reg v]) := by
    rw [← s.withScript_withScript [], engineTurn_withScript, ht]; rfl
  refine ⟨t.withLive (o s.ops) (x s.rounds), run_two (step_wr rfl) ?_,
    run_two ((step_engine rfl).trans hengineFirst) ?_⟩
  · rw [hlive]
    exact (step_engine rfl).trans hwriteFirst
  · have hturn : (t.withScript [Asm.wr s.params reg v]).script = [Asm.wr t.params reg v] := by
      rw [hparams]; rfl
    refine (step_wr hturn).trans (congrArg Host.Outcome.next ?_)
    calc (t.withScript []).writeRegister reg.offset v
        = t.withLive (o t.ops) (x t.rounds) := by rw [hempty, hlive]
      _ = t.withLive (o s.ops) (x s.rounds) := by rw [hops, hrounds]; rfl

end Sys2Proof.Machine
end

section
/-! PROOFS. The two paths of the universal hash give the same bytes (42_nh.md R66, R70, R71). -/

namespace Sys2Proof.Machine

/-- The first stride is what lane `i` adds. -/
theorem nhStride_zero (k rest : List Word) (m0 m1 m2 m3 : Word) (i : Nat) :
    nhStride k (m0 :: m1 :: m2 :: m3 :: rest) i 0 = laneTerm m0 m1 m2 m3 (k.drop (4 * i)) := by
  simp [nhStride, laneTerm, List.getD_eq_getElem?_getD]

/-- A later stride is one of the remaining message, under the key moved on by four words. -/
theorem nhStride_succ (k rest : List Word) (m0 m1 m2 m3 : Word) (i q : Nat) :
    nhStride k (m0 :: m1 :: m2 :: m3 :: rest) i (4 * (q + 1)) = nhStride (k.drop 4) rest i (4 * q) := by
  have hkey : 4 * (q + 1) + 4 * i = 4 + (4 * q + 4 * i) := by omega
  have hmsg : 4 * (q + 1) = 4 * q + 4 := rfl
  simp only [nhStride, hkey, List.getD_eq_getElem?_getD, List.getElem?_drop, Nat.add_assoc]
  simp [hmsg]

/-- Accumulator `i` of the PORTABLE path, started at `h`. -/
def nhAccumulatorFrom (k m : List Word) (i : Nat) (h : Lane) : Lane :=
  (List.range (m.length / 4)).foldl (fun h q => h + nhStride k m i (4 * q)) h

theorem nhAccumulator_eq_from (k m : List Word) (i : Nat) :
    nhAccumulator k m i = nhAccumulatorFrom k m i 0 := rfl

theorem nhAccumulatorFrom_of_length_lt (k m : List Word) (i : Nat) (h : Lane) (hm : m.length < 4) :
    nhAccumulatorFrom k m i h = h := by
  simp [nhAccumulatorFrom, Nat.div_eq_of_lt hm]

/-- One stride of the PORTABLE path is one step of lane `i`. -/
theorem nhAccumulatorFrom_stride (k rest : List Word) (m0 m1 m2 m3 : Word) (i : Nat) (h : Lane) :
    nhAccumulatorFrom k (m0 :: m1 :: m2 :: m3 :: rest) i h =
      nhAccumulatorFrom (k.drop 4) rest i (h + laneTerm m0 m1 m2 m3 (k.drop (4 * i))) := by
  have hlen : (m0 :: m1 :: m2 :: m3 :: rest).length / 4 = rest.length / 4 + 1 :=
    Nat.add_div_right rest.length (by decide : 0 < 4)
  simp only [nhAccumulatorFrom, hlen, List.range_succ_eq_map, List.foldl_cons, List.foldl_map, Nat.mul_zero,
    nhStride_zero, Nat.succ_eq_add_one, nhStride_succ]

/-- The four lanes of the VECTOR path are the four accumulators, from any start. -/
theorem vectorLanes_eq (k m : List Word) (h : Lanes) :
    vectorLanes k m h =
      { l0 := nhAccumulatorFrom k m 0 h.l0
        l1 := nhAccumulatorFrom k m 1 h.l1
        l2 := nhAccumulatorFrom k m 2 h.l2
        l3 := nhAccumulatorFrom k m 3 h.l3 } := by
  induction k, m, h using vectorLanes.induct with
  | case1 k m0 m1 m2 m3 rest h ih =>
    rw [vectorLanes, ih]
    simp only [nhAccumulatorFrom_stride, Nat.mul_zero, List.drop_zero, Nat.mul_one, Nat.reduceMul]
  | case2 m k h hshort =>
    have hm : m.length < 4 := by
      match m, hshort with
      | [], _ | [_], _ | [_, _], _ | [_, _, _], _ => simp
      | m0 :: m1 :: m2 :: m3 :: rest, hshort => exact absurd rfl (hshort m0 m1 m2 m3 rest)
    rw [vectorLanes.eq_2 _ _ _ hshort]
    simp only [nhAccumulatorFrom_of_length_lt _ _ _ _ hm]

theorem nhVector_eq_nhPortable (kn : Vector Byte 1072) (m : List Byte) : nhVector kn m = nhPortable kn m := by
  simp only [nhVector, vectorLanes_eq, nhPortable, nhAccumulator_eq_from]

/-- The digest does not depend on the backend (42_nh.md R70). -/
theorem nh_eq_nhPortable (b : Backend) (kn : Vector Byte 1072) (m : List Byte) :
    nh b kn m = nhPortable kn m := by
  cases b with
  | vector => exact nhVector_eq_nhPortable kn m
  | portable | notSelected => rfl

theorem nhMessage_backend (b b' : Backend) (kn : Vector Byte 1072) (l : List Byte) :
    nhMessage b kn l = nhMessage b' kn l := by
  simp only [nhMessage, nh_eq_nhPortable]

theorem hashA_backend (mac : MacFn) (b b' : Backend) (st : KeyStore) (t l : List Byte) :
    hashA mac b st t l = hashA mac b' st t l := by
  rw [hashA, hashA, nhMessage_backend b b']

end Sys2Proof.Machine
end

section
/-! PROOFS. The result of a command depends only on its record, the keys, and the bytes of its input ranges
(20_memory.md R37, R42; 42_nh.md R70). -/

namespace Sys2Proof.Machine

/-- Two states whose BUF agrees on every input range of a command. -/
def AgreeOnInputs (i : Instr) (o : Operands) (s s' : State) : Prop :=
  ∀ inp ∈ inputs i o, ∀ a, inp.range.holds a = true → s.buf.read a = s'.buf.read a

/-- States that agree on an input range read the same bytes from it. -/
theorem AgreeOnInputs.memRead {i : Instr} {o : Operands} {s s' : State} (h : AgreeOnInputs i o s s')
    {a n : Nat} {mayAlias : Bool}
    (hmem : { range := { start := a, len := n }, mayAlias := mayAlias } ∈ inputs i o) :
    s.memRead a n = s'.memRead a n := by
  refine List.map_congr_left fun j hj => h _ hmem _ ?_
  have hlt : j < n := List.mem_range.mp hj
  simp [Range.holds, hlt]

theorem AgreeOnInputs.memReadVec {i : Instr} {o : Operands} {s s' : State} (h : AgreeOnInputs i o s s')
    {a n : Nat} {mayAlias : Bool}
    (hmem : { range := { start := a, len := n }, mayAlias := mayAlias } ∈ inputs i o) :
    s.memReadVec a n = s'.memReadVec a n := by
  simp only [State.memReadVec, h.memRead hmem]

/-- The output bytes come from the record, the keys and the input bytes only; the backend is no input. -/
theorem outputBytes_eq_of_agree {i : Instr} {s s' : State} {r : Inflight} (hkeys : s.keys = s'.keys)
    (h : AgreeOnInputs i r.ops s s') : outputBytes i s r = outputBytes i s' r := by
  cases i with
  | ldkey k => rfl
  | hchacha =>
    have haux : s.memReadVec r.ops.aux.toNat 16 = s'.memReadVec r.ops.aux.toNat 16 :=
      h.memReadVec (List.mem_singleton.mpr rfl)
    simp only [outputBytes, hkeys, haux]
  | xstream =>
    have hsrc := h.memRead List.mem_cons_self
    have haux := h.memRead (List.mem_cons_of_mem _ List.mem_cons_self)
    simp only [outputBytes, hkeys, hsrc, haux]
  | nhChunk =>
    have hsrc := h.memRead List.mem_cons_self
    simp only [outputBytes, hkeys, hsrc, nh_eq_nhPortable]
  | nhMsg =>
    have hsrc := h.memRead List.mem_cons_self
    simp only [outputBytes, hkeys, hsrc, nhMessage_backend s.backendAfterHash s'.backendAfterHash]
  | hashA =>
    have hsrc := h.memRead List.mem_cons_self
    have haux := h.memRead (List.mem_cons_of_mem _ List.mem_cons_self)
    simp only [outputBytes, hkeys, hsrc, haux, hashA_backend _ s.backendAfterHash s'.backendAfterHash]
  | add128 | sub128 =>
    have hsrc := h.memRead List.mem_cons_self
    have haux := h.memRead (List.mem_cons_of_mem _ List.mem_cons_self)
    simp only [outputBytes, hsrc, haux]

/-- The checks look at the record, the parameters and the keys only. -/
theorem commandChecks_congr {s s' : State} (i : Instr) (r : Inflight) (hparams : s.params = s'.params)
    (hkeys : s.keys = s'.keys) : commandChecks i s r = commandChecks i s' r := by
  simp only [commandChecks, hparams, hkeys]

/-- What a successful command leaves in its output range. -/
theorem commandEffect_output (i : Instr) {s : State} (r : Inflight) (hwf : s.buf.wf) {a : Nat}
    (ha : (outRange i r.ops).holds a = true) :
    (commandEffect i s r).buf.read a = (outputBytes i s r).getD (a - (outRange i r.ops).start) 0 := by
  rw [commandEffect_buf, Buf.read_writeBytes _ _ _ _ hwf, outputBytes_length]
  exact if_pos (by simpa [Range.holds] using ha)

/-- The keys a successful command leaves; LDKEY reads as many bytes as its input range has, by its check. -/
theorem commandEffect_keys_eq_of_agree {i : Instr} {s s' : State} {r : Inflight}
    (hpass : firstError (commandChecks i s r) = none) (hkeys : s.keys = s'.keys)
    (h : AgreeOnInputs i r.ops s s') : (commandEffect i s r).keys = (commandEffect i s' r).keys := by
  by_cases hi : ∀ k, i ≠ .ldkey k
  · rw [commandEffect_keys i s r hi, commandEffect_keys i s' r hi, hkeys]
  · obtain ⟨k, rfl⟩ := not_forall_not.mp hi
    obtain ⟨-, hkeyLen, -⟩ := commandChecks_pass hpass
    have hlen : r.ops.srcLen.toNat = k.size := by simpa [badKeyLen] using hkeyLen
    have hread : s.memReadVec r.ops.src.toNat k.size = s'.memReadVec r.ops.src.toNat k.size :=
      h.memReadVec (mayAlias := false) (by rw [← hlen]; exact List.mem_cons_self)
    change s.keys.load k _ = s'.keys.load k _
    rw [hkeys, hread]

/-- How a command ends, from a state whose record is known. -/
theorem exec_next_of_inflight {i : Instr} {s t : State} {r : Inflight} (hr : s.inflight = some r)
    (h : exec i s = .next t) :
    (∃ e, e ≠ .none ∧ firstError (commandChecks i s r) = some e ∧ t = s.raise e) ∨
      (firstError (commandChecks i s r) = none ∧ t = commandEffect i s r) := by
  obtain ⟨r', hr', hcases⟩ := exec_next h
  obtain rfl : r = r' := Option.some.inj (hr.symm.trans hr')
  exact hcases

/-- Settles O43: equal checks, so both states end alike, and a success computes from equal inputs. -/
theorem resultDependsOnlyOnTheInputs : Obligations.ResultDependsOnlyOnTheInputs := by
  intro i s s' t t' r hwf hwf' hr hr' hparams hkeys hagree ht ht'
  have hchecks := commandChecks_congr i r hparams hkeys
  obtain ⟨e, he, hfail, rfl⟩ | ⟨hpass, rfl⟩ := exec_next_of_inflight hr ht <;>
    obtain ⟨e', -, hfail', rfl⟩ | ⟨hpass', rfl⟩ := exec_next_of_inflight hr' ht'
  · obtain rfl : e = e' := Option.some.inj (hfail.symm.trans (hchecks ▸ hfail'))
    exact ⟨rfl, rfl, hkeys, fun hnone => absurd hnone he⟩
  · rw [hchecks, hpass'] at hfail
    cases hfail
  · rw [hchecks, hfail'] at hpass
    cases hpass
  · obtain ⟨-, -, -, -, herr, hout⟩ := commandEffect_completes i s r
    obtain ⟨-, -, -, -, herr', hout'⟩ := commandEffect_completes i s' r
    refine ⟨herr.trans herr'.symm, hout.trans hout'.symm,
      commandEffect_keys_eq_of_agree hpass hkeys hagree, fun _ a ha => ?_⟩
    rw [commandEffect_output i r hwf ha, commandEffect_output i r hwf' ha,
      outputBytes_eq_of_agree hkeys hagree]

end Sys2Proof.Machine
end

section
/-! PROOFS. The command words: every word that decodes is the word of its command, and the opcode map lists
exactly these (30_encoding.md R46 to R50). -/

namespace Sys2Proof

open Machine

/-- The family EncodingLegal, for every command. -/
theorem encodingLegal : ∀ i : Instr, Laws.EncodingLegal.Statement i
  | .ldkey k => Laws.EncodingLegal.ldkey k
  | .hchacha => Laws.EncodingLegal.hchacha
  | .xstream => Laws.EncodingLegal.xstream
  | .nhChunk => Laws.EncodingLegal.nhChunk
  | .nhMsg => Laws.EncodingLegal.nhMsg
  | .hashA => Laws.EncodingLegal.hashA
  | .add128 => Laws.EncodingLegal.add128
  | .sub128 => Laws.EncodingLegal.sub128

theorem decode_encode (i : Instr) : decode (encode i) = .command i := 
  let ⟨_, hdecode, _⟩ := encodingLegal i
  hdecode

theorem legalWord_encode (i : Instr) : legalWord (encode i) = true := 
  let ⟨hlegal, _, _⟩ := encodingLegal i
  hlegal

theorem Instr.wellFormed_eq_true (i : Instr) : i.wellFormed = true := 
  let ⟨_, _, hwf⟩ := encodingLegal i
  hwf

/-- A word is its three fields (30_encoding.md R46). -/
theorem word_eq_append_fields (w : Word) : w = rsvdField w ++ kselField w ++ opField w := by
  simp only [rsvdField, kselField, opField, BitVec.extractLsb'_append_extractLsb'_eq_extractLsb',
    BitVec.extractLsb'_eq_self]

/-- The fields of a command's word determine the word. -/
theorem eq_encode_of_fields {w : Word} {i : Instr} (hrsvd : rsvdField w = 0)
    (hksel : kselField w = kselOfInstr i) (hop : opField w = opOf i) : w = encode i := by
  rw [word_eq_append_fields w, hrsvd, hksel, hop, encode]

theorem kselOf_keyOfKsel : ∀ b : BitVec 2, kselOf (keyOfKsel b) = b := by decide

/-- RSVD = 0 and LDKEY's OP leave one word for each of the four keys. -/
theorem eq_encode_ldkey_of_fields {w : Word} (hrsvd : rsvdField w = 0) (hop : opField w = 0x01) :
    w = encode (.ldkey (keyOfKsel (kselField w))) :=
  eq_encode_of_fields hrsvd (kselOf_keyOfKsel _).symm hop

/-- The commands with KSEL = 0 are found by their own OP. -/
theorem fields_of_plainCommand {op : BitVec 8} {i : Instr} (h : plainCommand op = some i) :
    op = opOf i ∧ kselOfInstr i = 0 := by
  unfold plainCommand at h
  split at h
  case h_8 => cases h
  all_goals
    next hop => cases h; exact ⟨BitVec.eq_of_toNat_eq hop, rfl⟩

/-- A word that decodes is the word of its command, by the branches of `decode`. -/
theorem eq_encode_of_decode {w : Word} {i : Instr} (h : decode w = .command i) : w = encode i := by
  unfold decode at h
  split at h
  · cases h
  next hrsvd =>
    have hrsvd : rsvdField w = 0 := not_not.mp hrsvd
    split at h
    next hop =>
      cases h
      exact eq_encode_ldkey_of_fields hrsvd hop
    · split at h
      · cases h
      next j hplain =>
        obtain ⟨hop, hksel⟩ := fields_of_plainCommand hplain
        split at h
        next hzero =>
          cases h
          exact eq_encode_of_fields hrsvd (hzero.trans hksel.symm) hop
        · cases h

theorem decode_eq_command_iff (w : Word) (i : Instr) : decode w = .command i ↔ w = encode i :=
  ⟨eq_encode_of_decode, fun h => h ▸ decode_encode i⟩

/-- Settles O2. -/
theorem decodeAndEncodeAgree : Obligations.DecodeAndEncodeAgree :=
  fun w i => ⟨i.wellFormed_eq_true, decode_eq_command_iff w i⟩

/-- Settles O1: each word written out is the one `encode` assembles. -/
theorem commandWordsDecode : Obligations.CommandWordsDecode :=
  ⟨decode_encode (.ldkey .ks), decode_encode (.ldkey .kt), decode_encode (.ldkey .km),
    decode_encode (.ldkey .kn), decode_encode .hchacha, decode_encode .xstream, decode_encode .nhChunk,
    decode_encode .nhMsg, decode_encode .hashA, decode_encode .add128, decode_encode .sub128⟩

/-- The LDKEY row leaves KSEL free, so a word that matches it is the LDKEY word of the key it selects. -/
theorem eq_encode_of_ldkey_row {w : Word} (h : w &&& 0xFFFFFCFF = 0x00000001) :
    w = encode (.ldkey (keyOfKsel (kselField w))) := by
  have hrsvd : rsvdField (w &&& 0xFFFFFCFF) = rsvdField w &&& BitVec.allOnes 22 := BitVec.extractLsb'_and
  have hop : opField (w &&& 0xFFFFFCFF) = opField w &&& BitVec.allOnes 8 := BitVec.extractLsb'_and
  rw [h, BitVec.and_allOnes] at hrsvd hop
  exact eq_encode_ldkey_of_fields hrsvd.symm hop.symm

/-- Every other row fixes all 32 bits. -/
theorem eq_encode_of_full_mask {w : Word} {i : Instr} (h : w &&& 0xFFFFFFFF = encode i) : w = encode i :=
  BitVec.and_allOnes.symm.trans h

/-- The first row of the opcode map that a word matches (30_encoding.md R48). -/
def firstRow (w : Word) : Option OpcodeRow := opcodeMap.find? fun row => row.matchesWord w

/-- A word that matches a row is the word of a command of that row. -/
theorem exists_encode_of_row {w : Word} {row : OpcodeRow} (hrow : row ∈ opcodeMap)
    (h : w &&& row.mask = row.mtch) : ∃ i, w = encode i ∧ firstRow (encode i) = some row := by
  fin_cases hrow
  · exact ⟨_, eq_encode_of_ldkey_row h, by cases keyOfKsel (kselField w) <;> rfl⟩
  · exact ⟨.hchacha, eq_encode_of_full_mask h, rfl⟩
  · exact ⟨.xstream, eq_encode_of_full_mask h, rfl⟩
  · exact ⟨.nhChunk, eq_encode_of_full_mask h, rfl⟩
  · exact ⟨.nhMsg, eq_encode_of_full_mask h, rfl⟩
  · exact ⟨.hashA, eq_encode_of_full_mask h, rfl⟩
  · exact ⟨.add128, eq_encode_of_full_mask h, rfl⟩
  · exact ⟨.sub128, eq_encode_of_full_mask h, rfl⟩

/-- A row that a word matches is the first one it matches, so there is only one. -/
theorem firstRow_eq_of_row {w : Word} {row : OpcodeRow} (hrow : row ∈ opcodeMap)
    (h : w &&& row.mask = row.mtch) : firstRow w = some row := by
  obtain ⟨i, rfl, hfirst⟩ := exists_encode_of_row hrow h
  exact hfirst

theorem exists_row_of_encode (i : Instr) : ∃ row ∈ opcodeMap, encode i &&& row.mask = row.mtch := by
  simpa [legalWord, OpcodeRow.matchesWord] using legalWord_encode i

/-- A word is legal iff it matches a row of the opcode map (30_encoding.md R48). -/
theorem exists_decode_iff_exists_row (w : Word) :
    (∃ i, decode w = .command i) ↔ ∃ row ∈ opcodeMap, w &&& row.mask = row.mtch := by
  constructor
  · rintro ⟨i, hi⟩
    rw [eq_encode_of_decode hi]
    exact exists_row_of_encode i
  · rintro ⟨row, hrow, h⟩
    obtain ⟨i, rfl, -⟩ := exists_encode_of_row hrow h
    exact ⟨i, decode_encode i⟩

/-- A word that matches no row is illegal. -/
theorem exists_decode_illegal {w : Word} (h : ∀ row ∈ opcodeMap, ¬(w &&& row.mask = row.mtch)) :
    ∃ why, decode w = .illegal why := by
  cases hw : decode w with
  | illegal why => exact ⟨why, rfl⟩
  | command i =>
    obtain ⟨row, hrow, hmatch⟩ := (exists_decode_iff_exists_row w).mp ⟨i, hw⟩
    exact absurd hmatch (h row hrow)

/-- An illegal word in flight, with the engine to move and the host duty kept, ends with ILLEGAL_CMD. -/
theorem step_illegal {s : State} {r : Inflight} {why : DecodeError} (hr : s.inflight = some r)
    (hbreach : s.breach = Breach.none) (hscript : s.script = []) (hw : decode r.word = .illegal why) :
    step s = .next (s.raise .illegalCmd) := by
  have hstep : step s = engineTurn s := by simp only [step, takeTurn, hscript]
  rw [hstep, engineTurn_illegal hr hw, State.settleBreach_none (s := s.raise .illegalCmd) _ hbreach]

/-- Settles O3, one lemma per clause; the mask clause goes through the rows. -/
theorem opcodeMapDecidesLegality : Obligations.OpcodeMapDecidesLegality := by
  refine ⟨exists_decode_iff_exists_row, by decide, fun w row hrow row' hrow' h h' => ?_,
    fun s r hr hbreach hscript hnone => ?_⟩
  · exact Option.some.inj ((firstRow_eq_of_row hrow h).symm.trans (firstRow_eq_of_row hrow' h'))
  · obtain ⟨why, hw⟩ := exists_decode_illegal hnone
    exact step_illegal hr hbreach hscript hw

end Sys2Proof
end

section
/-! PROOFS. The host's `wait` (30_encoding.md R52): the polls change nothing but what was read, and the engine's
turn before the last poll clears BUSY. -/

namespace Sys2Proof.Machine

/-- The first step of a run, taken off. -/
theorem core_run_succ {s u : State} (h : step s = .next u) (k : Nat) : core.run (k + 1) s = core.run k u := by
  have hs : core.step s = .next u := h
  simp only [Host.Core.run, hs]

/-- `rd STATUS` is one step, which shows the host the STATUS word. -/
theorem step_rd_status {s : State} {rest : List Turn} (h : s.script = Asm.rd s.params .status :: rest) :
    step s = .next { s with script := rest, rdata := s.statusWord } :=
  (registerAccessIsOneStep s RegName.status.offset 0 rest (by decide) (by decide)).1 h

/-- The engine's turn leaves BUSY = 0. -/
theorem engineTurn_busy {s t : State} (h : engineTurn s = .next t) : t.busy = false := by
  suffices hidle : t.inflight = none by rw [State.busy, hidle]; rfl
  obtain ⟨hnone, rfl⟩ | ⟨r, -, ⟨i, u, -, hu, rfl⟩ | ⟨-, -, rfl⟩⟩ := engineTurn_next h
  · exact hnone
  · obtain ⟨-, -, -, -, -, -, -, -, hdone⟩ := exec_frame hu
    obtain ⟨-, -, -, -, hsettle, -⟩ := u.settleBreach_frame r.outRange
    exact hsettle.trans hdone
  · obtain ⟨-, -, -, -, hsettle, -⟩ := (s.raise .illegalCmd).settleBreach_frame r.outRange
    exact hsettle

theorem Asm.wait_succ (p : Params) (polls : Nat) :
    Asm.wait p (polls + 1) = Asm.rd p .status :: Asm.wait p polls := rfl

/-- Settles O40, by induction on the number of polls that see BUSY = 1. -/
theorem waitEndsWithBusyClear : Obligations.WaitEndsWithBusyClear := by
  intro s polls rest hbusy hscript
  induction polls generalizing s with
  | zero =>
    obtain ⟨t, ht⟩ := engineTurn_total { s with script := Asm.rd s.params .status :: rest }
    obtain ⟨-, -, hparams, hturns⟩ := engineTurn_frame ht
    have hread : t.script = Asm.rd t.params .status :: rest := by rw [hturns, hparams]
    have hidle := engineTurn_busy ht
    refine ⟨_, run_two ((step_engine hscript).trans ht) (step_rd_status hread), rfl, hidle, ?_, rfl⟩
    exact (t.statusWord_getLsbD 0).trans hidle
  | succ polls ih =>
    rw [Asm.wait_succ] at hscript
    rw [core_run_succ (step_rd_status hscript)]
    exact ih { s with script := Asm.wait s.params polls ++ rest, rdata := s.statusWord } hbusy rfl

end Sys2Proof.Machine
end

section
/-! PROOFS. How a command ends, told from the error its pseudocode raises: once the checks report that error, it
is raised, or the command has its effect (60_exceptions.md R84, R86). -/

namespace Sys2Proof.Machine

/-- A command whose checks report what its pseudocode raises ends with that error. -/
theorem exec_failed_of_errorOf {i : Instr} {s : State} {r : Inflight} (hr : s.inflight = some r)
    (hspec : Spec.errorOf i s.params s.keys r = (firstError (commandChecks i s r)).getD .none) (e : ErrCode)
    (he : Spec.errorOf i s.params s.keys r = e) (hne : e ≠ .none) : exec i s = .next (Spec.failed s e) := by
  rw [exec_eq_runCommand]
  cases hfirst : firstError (commandChecks i s r) with
  | none =>
    rw [hfirst] at hspec
    exact absurd (he.symm.trans hspec) hne
  | some e' =>
    rw [hfirst] at hspec
    obtain rfl : e = e' := he.symm.trans hspec
    exact runCommand_error hr hfirst

/-- A command whose checks report what its pseudocode raises has its effect when that raises nothing. -/
theorem exec_effect_of_errorOf {i : Instr} {s : State} {r : Inflight} (hr : s.inflight = some r)
    (hspec : Spec.errorOf i s.params s.keys r = (firstError (commandChecks i s r)).getD .none)
    (hnone : Spec.errorOf i s.params s.keys r = .none) : exec i s = .next (commandEffect i s r) := by
  rw [exec_eq_runCommand]
  cases hfirst : firstError (commandChecks i s r) with
  | none => exact runCommand_effect hr hfirst
  | some e =>
    rw [hfirst] at hspec
    exact absurd (hspec.symm.trans hnone) (commandChecks_error_ne_none hfirst)

end Sys2Proof.Machine
end

section
/-! PROOFS. LDKEY (40_keyload.md R53): the error its pseudocode raises is the one the checks report, and what it
loads and leaves alone. -/

namespace Sys2Proof.Machine

/-- LDKEY has no output range, so only its source can be out of BUF. -/
theorem badRange_ldkey (k : KeySel) (p : Params) (o : Operands) :
    badRange (.ldkey k) p o = decide (p.bufSize < o.src.toNat + o.srcLen.toNat) := by
  simp [badRange, outRange, inputs, Range.legal, Operands.srcRange, ← decide_not]

/-- LDKEY has no output range, so nothing overlaps. -/
theorem badOverlap_ldkey (k : KeySel) (o : Operands) : badOverlap (.ldkey k) o = false := by
  simp [badOverlap, inputs, Input.clashes, Range.intersects, outRange]

/-- Of the six checks only the length and the range can fail for LDKEY. -/
theorem firstError_ldkey (k : KeySel) (s : State) (r : Inflight) :
    firstError (commandChecks (.ldkey k) s r) =
      if r.ops.srcLen.toNat ≠ k.size then some .badKeyLen
      else if s.params.bufSize < r.ops.src.toNat + r.ops.srcLen.toNat then some .range
      else none := by
  simp [commandChecks, firstError, badRounds, badKeyLen, badLength, badRange_ldkey, badOverlap_ldkey,
    keyMissing, keysRead]

/-- The checks of LDKEY report what its pseudocode raises. -/
theorem errorOf_ldkey (k : KeySel) (s : State) (r : Inflight) :
    Spec.errorOf (.ldkey k) s.params s.keys r = (firstError (commandChecks (.ldkey k) s r)).getD .none := by
  rw [firstError_ldkey, Spec.errorOf]
  split
  · rfl
  · split <;> rfl

/-- LDKEY stores no byte: it loads the source bytes and completes with length 0. -/
theorem commandEffect_ldkey (k : KeySel) (s : State) (r : Inflight) :
    commandEffect (.ldkey k) s r =
      { Spec.stored s 0 [] with keys := s.keys.load k (s.memReadVec r.ops.src.toNat k.size) } := rfl

/-- Settles O7: the word from `decode_eq_command_iff`, success and errors from `errorOf_ldkey`. -/
theorem ldkeyLoadsTheKeyRegister : Obligations.LdkeyLoadsTheKeyRegister := by
  refine ⟨fun k w => ?_, fun k s r hr => ⟨fun hlen hrange => ?_, ?_⟩⟩
  · rw [decode_eq_command_iff]
    cases k <;> rfl
  · have hnone : Spec.errorOf (.ldkey k) s.params s.keys r = .none := by
      simp [Spec.errorOf, hlen, hrange]
    refine ⟨s.keys.load k (s.memReadVec r.ops.src.toNat k.size), by simp, by simp,
      fun j => KeyStore.get_load_ne _ _ _ _, ?_⟩
    rw [exec_effect_of_errorOf hr (errorOf_ldkey k s r) hnone, commandEffect_ldkey]
  · exact exec_failed_of_errorOf hr (errorOf_ldkey k s r)

/-- LDKEY, however it ends, changes no key but its own. -/
theorem exec_ldkey_keeps_other_keys {k j : KeySel} {s t : State} (h : exec (.ldkey k) s = .next t)
    (hj : j ≠ k) : t.keys.get j = s.keys.get j := by
  by_contra hchanged
  obtain ⟨heq, -⟩ := exec_changes_key h hchanged
  exact hj (Instr.ldkey.inj heq).symm

/-- LDKEY, however it ends, stores no byte of BUF and keeps the backend latch and OVR. -/
theorem exec_ldkey_keeps_buf_backend_ovr {k : KeySel} {s t : State} (h : exec (.ldkey k) s = .next t) :
    t.buf = s.buf ∧ t.status.backend = s.status.backend ∧ t.status.ovr = s.status.ovr := by
  obtain ⟨r, -, ⟨e, -, -, rfl⟩ | ⟨-, rfl⟩⟩ := exec_next h
  · exact ⟨rfl, rfl, rfl⟩
  · rw [commandEffect_ldkey]
    exact ⟨rfl, rfl, rfl⟩

/-- Settles O18: `exec_frame` for what no command changes, and what LDKEY in particular keeps. -/
theorem ldkeyFrame : Obligations.LdkeyFrame := by
  intro k s t h
  obtain ⟨hrounds, hops, hparams, hcapVec, hscript, hrdata, hbreach, hdraws, -⟩ := exec_frame h
  obtain ⟨hbuf, hbackend, hovr⟩ := exec_ldkey_keeps_buf_backend_ovr h
  exact ⟨fun a => by rw [hbuf], fun j => exec_ldkey_keeps_other_keys h, hrounds, hops, hbackend, hovr,
    hparams, hcapVec, hscript, hrdata, hbreach, hdraws⟩

end Sys2Proof.Machine
end

section
/-! PROOFS. Byte strings of fixed length, and the full nonce with its two halves (41_stream.md R60, R65). -/

namespace Sys2Proof.Machine

/-- A list cut to a fixed length. -/
theorem toList_fixed {n : Nat} {l : List Byte} (h : n ≤ l.length) : (Spec.fixed n l).toList = l.take n := by
  refine List.ext_getElem (by simpa using h) fun i hi _ => ?_
  have hn : i < n := by simpa using hi
  simp [Spec.fixed, List.getElem?_eq_getElem (Nat.lt_of_lt_of_le hn h)]

theorem specFullNonce_length {nu : List Byte} (h : nu.length ≤ 23) : (Spec.fullNonce nu).length = 24 := by
  simp only [Spec.fullNonce, List.length_append, List.length_singleton, List.length_replicate]
  omega

/-- The full nonce is the formula of 41_stream.md R60, cut to 24 bytes. -/
theorem fullNonce_eq_fixed (nu : List Byte) : fullNonce nu = Spec.fixed 24 (Spec.fullNonce nu) := by
  refine Vector.ext fun i hi => ?_
  simp only [fullNonce, Spec.fixed, Spec.fullNonce, Vector.getElem_ofFn, List.getD_eq_getElem?_getD,
    List.append_assoc, List.getElem?_append, List.singleton_append]
  obtain hlt | rfl | hgt := Nat.lt_trichotomy i nu.length
  · simp [hlt]
  · simp
  · obtain ⟨k, rfl⟩ := Nat.exists_eq_add_of_lt hgt
    have hk : k < 23 - nu.length := by omega
    simp [hk, Nat.add_assoc]

theorem fullNonce_toList {nu : List Byte} (h : nu.length ≤ 23) :
    (fullNonce nu).toList = Spec.fullNonce nu := by
  have hlen := specFullNonce_length h
  rw [fullNonce_eq_fixed, toList_fixed hlen.ge, List.take_of_length_le hlen.le]

theorem subNonce_eq_fixed (nf : Vector Byte 24) : subNonce nf = Spec.fixed 16 nf.toList := rfl

theorem innerNonce_eq_fixed (nf : Vector Byte 24) : innerNonce nf = Spec.fixed 8 (nf.toList.drop 16) := by
  refine Vector.ext fun i hi => ?_
  simp only [innerNonce, Spec.fixed, Vector.getElem_ofFn, List.getD_eq_getElem?_getD, List.getElem?_drop]

theorem subNonce_toList (nf : Vector Byte 24) : (subNonce nf).toList = nf.toList.take 16 := by
  rw [subNonce_eq_fixed, toList_fixed (by simp)]

theorem innerNonce_toList (nf : Vector Byte 24) : (innerNonce nf).toList = nf.toList.drop 16 := by
  rw [innerNonce_eq_fixed, toList_fixed (by simp), List.take_of_length_le (by simp)]

/-- Below 16 bytes the sub-nonce holds the logical nonce, the 0x01 and the first zeros. -/
theorem subNonce_of_lt {nu : List Byte} (h : nu.length < 16) :
    (subNonce (fullNonce nu)).toList = nu ++ 0x01 :: List.replicate (15 - nu.length) 0 := by
  have hsplit : 16 - nu.length = (15 - nu.length) + 1 := by omega
  have hmin : min (15 - nu.length) (23 - nu.length) = 15 - nu.length := by omega
  rw [subNonce_toList, fullNonce_toList (by omega), Spec.fullNonce, List.append_assoc, List.take_append,
    List.take_of_length_le h.le, hsplit]
  simp [hmin]

/-- Below 16 bytes the inner nonce is zero. -/
theorem innerNonce_of_lt {nu : List Byte} (h : nu.length < 16) :
    (innerNonce (fullNonce nu)).toList = List.replicate 8 0 := by
  have hsplit : 16 - nu.length = (15 - nu.length) + 1 := by omega
  have hrest : 23 - nu.length - (15 - nu.length) = 8 := by omega
  rw [innerNonce_toList, fullNonce_toList (by omega), Spec.fullNonce, List.append_assoc, List.drop_append,
    List.drop_of_length_le h.le, hsplit]
  simp [hrest]

/-- From 16 bytes on the sub-nonce is the start of the logical nonce. -/
theorem subNonce_of_ge {nu : List Byte} (h : 16 ≤ nu.length) (h' : nu.length ≤ 23) :
    (subNonce (fullNonce nu)).toList = nu.take 16 := by
  rw [subNonce_toList, fullNonce_toList h', Spec.fullNonce, List.append_assoc,
    List.take_append_of_le_length h]

/-- From 16 bytes on the inner nonce holds the rest of the logical nonce, the 0x01 and the zeros. -/
theorem innerNonce_of_ge {nu : List Byte} (h : 16 ≤ nu.length) (h' : nu.length ≤ 23) :
    (innerNonce (fullNonce nu)).toList = nu.drop 16 ++ 0x01 :: List.replicate (23 - nu.length) 0 := by
  rw [innerNonce_toList, fullNonce_toList h', Spec.fullNonce, List.append_assoc,
    List.drop_append_of_le_length h, List.singleton_append]

/-- Settles O52: the halves are cuts of the list of `fullNonce_toList`, on either side of 16 bytes. -/
theorem fullNonceIsPaddedWithOne : Obligations.FullNonceIsPaddedWithOne := by
  intro nu h
  refine ⟨fullNonce_toList h, subNonce_toList _, innerNonce_toList _,
    fun hshort => ⟨?_, innerNonce_of_lt hshort⟩, fun hlong => ⟨subNonce_of_ge hlong h, ?_⟩⟩
  · rw [subNonce_of_lt hshort]
    exact List.mem_append_right _ List.mem_cons_self
  · rw [innerNonce_of_ge hlong h]
    exact List.mem_append_right _ List.mem_cons_self

/-- Past the logical nonce the full nonce is 0x01 once, then zeros. -/
theorem fullNonce_getElem {nu : List Byte} {i : Nat} (hi : i < 24) (h : nu.length ≤ i) :
    (fullNonce nu)[i] = if i = nu.length then 1 else 0 := by
  simp [fullNonce, Nat.not_lt.mpr h]

/-- The 0x01 that ends the longer of two logical nonces stands where the other one has a zero. -/
theorem length_le_of_fullNonce_eq {nu mu : List Byte} (hmu : mu.length ≤ 23)
    (h : fullNonce nu = fullNonce mu) : mu.length ≤ nu.length := by
  by_contra hlt
  have hend : (fullNonce nu)[mu.length] = (fullNonce mu)[mu.length] := by rw [h]
  rw [fullNonce_getElem (by omega) (by omega), fullNonce_getElem (by omega) le_rfl, if_neg (by omega),
    if_pos rfl] at hend
  exact absurd hend (by decide)

/-- The full nonce determines the logical nonce. -/
theorem fullNonce_inj {nu mu : List Byte} (hnu : nu.length ≤ 23) (hmu : mu.length ≤ 23)
    (h : fullNonce nu = fullNonce mu) : nu = mu := by
  have hlen := Nat.le_antisymm (length_le_of_fullNonce_eq hnu h.symm) (length_le_of_fullNonce_eq hmu h)
  have hlist : Spec.fullNonce nu = Spec.fullNonce mu := by
    rw [← fullNonce_toList hnu, ← fullNonce_toList hmu, h]
  rw [Spec.fullNonce, Spec.fullNonce, List.append_assoc, List.append_assoc] at hlist
  exact List.append_inj_left hlist hlen

/-- Settles O53: the halves from the two cases of O52, the rest from `fullNonce_inj`. -/
theorem fullNoncesNeverCollide : Obligations.FullNoncesNeverCollide := by
  refine ⟨subNonce_of_lt (by decide), innerNonce_of_lt (by decide), fun nu h => ⟨?_, ?_, fun heq => ?_⟩,
    fun _ _ => fullNonce_inj⟩
  · rw [subNonce_of_ge h.ge (by omega), ← h, List.take_length]
  · rw [innerNonce_of_ge h.ge (by omega), List.drop_of_length_le h.le, h]
    rfl
  · rw [fullNonce_inj (by omega) (by decide) heq] at h
    cases h

end Sys2Proof.Machine
end

section
/-! PROOFS. The nonce-extension function against the assignments of its rules (41_stream.md R55 to R58). -/

namespace Sys2Proof.Machine

/-- The sixteen words of the vector are the first sixteen values of the function. -/
def ChaAgree (s : ChaState) (f : Nat → Word) : Prop := ∀ t : Fin 16, s[t] = f t

/-- Two lines of the quarter-round, on a function: `s[x] += s[y]; s[z] <- rotl32(s[z] ⊕ s[x], n)`
(41_stream.md R56). -/
def specHalfStep (x y z n : Nat) (f : Nat → Word) : Nat → Word :=
  let g := Function.update f x (f x + f y)
  Function.update g z (Spec.rotl (g z ^^^ g x) n)

theorem specQuarterRound_eq_halfSteps (a b c d : Nat) (f : Nat → Word) :
    Spec.quarterRound a b c d f =
      specHalfStep c d b 7 (specHalfStep a b d 8 (specHalfStep c d b 12 (specHalfStep a b d 16 f))) := rfl

theorem rotateLeft_eq_rotl (x : Word) {n : Nat} (h : n < 32) : x.rotateLeft n = Spec.rotl x n := by
  rw [BitVec.rotateLeft_def, Nat.mod_eq_of_lt h, Spec.rotl]

/-- Setting a word of the vector is updating the function there. -/
theorem ChaAgree.set {s : ChaState} {f : Nat → Word} (h : ChaAgree s f) (x : Fin 16) (v : Word) :
    ChaAgree (s.set x v) (Function.update f x v) := by
  intro t
  by_cases ht : t = x
  · subst ht
    simp
  · have hval : (t : Nat) ≠ x := fun hv => ht (Fin.ext hv)
    rw [Function.update_of_ne hval, ← h t]
    exact Vector.getElem_set_ne _ _ hval.symm

theorem ChaAgree.halfStep {s : ChaState} {f : Nat → Word} (h : ChaAgree s f) (x y z : Fin 16) {n : Nat}
    (hzx : z ≠ x) (hn : n < 32) : ChaAgree (chaHalfStep x y z n s) (specHalfStep x y z n f) := by
  have hval : (z : Nat) ≠ x := fun hv => hzx (Fin.ext hv)
  have hz : Function.update f x (f x + f y) z = f z := Function.update_of_ne hval _ _
  have hx : Function.update f x (f x + f y) x = f x + f y := Function.update_self _ _ _
  rw [chaHalfStep, specHalfStep, hz, hx, ← h x, ← h y, ← h z, ← rotateLeft_eq_rotl _ hn]
  exact (h.set x _).set z _

theorem ChaAgree.quarterRound {s : ChaState} {f : Nat → Word} (h : ChaAgree s f) (a b c d : Fin 16)
    (hda : d ≠ a) (hbc : b ≠ c) : ChaAgree (quarterRound a b c d s) (Spec.quarterRound a b c d f) := by
  rw [specQuarterRound_eq_halfSteps]
  exact (((h.halfStep a b d hda (by decide)).halfStep c d b hbc (by decide)).halfStep a b d hda
    (by decide)).halfStep c d b hbc (by decide)

theorem ChaAgree.doubleRound {s : ChaState} {f : Nat → Word} (h : ChaAgree s f) :
    ChaAgree (diagonalRound (columnRound s)) (Spec.doubleRound f) :=
  have hcolumn := (((h.quarterRound 0 4 8 12 (by decide) (by decide)).quarterRound 1 5 9 13 (by decide)
    (by decide)).quarterRound 2 6 10 14 (by decide) (by decide)).quarterRound 3 7 11 15 (by decide) (by decide)
  (((hcolumn.quarterRound 0 5 10 15 (by decide) (by decide)).quarterRound 1 6 11 12 (by decide)
    (by decide)).quarterRound 2 7 8 13 (by decide) (by decide)).quarterRound 3 4 9 14 (by decide) (by decide)

theorem ChaAgree.doubleRounds {s : ChaState} {f : Nat → Word} (h : ChaAgree s f) (n : Nat) :
    ChaAgree (doubleRounds n s) (Spec.doubleRound^[n] f) := by
  induction n generalizing s f with
  | zero => exact h
  | succ n ih => exact ih h.doubleRound

/-- The initial state word by word: the constants, the key, the sub-nonce (41_stream.md R55). -/
theorem hchachaInit_getElem (key : Vector Byte 32) (n : Vector Byte 16) (t : Fin 16) :
    (hchachaInit key n)[t] =
      if t.val < 4 then chaConstants.getD t 0
      else if t.val < 12 then wordAt key.toList (t - 4)
      else wordAt n.toList (t - 12) := Vector.getElem_ofFn _

theorem chaAgree_init (key : Vector Byte 32) (n : Vector Byte 16) :
    ChaAgree (hchachaInit key n) (Spec.chaInit key.toList n.toList) := by
  intro t
  rw [hchachaInit_getElem, Spec.chaInit]
  by_cases hconst : t.val < 4
  · rw [if_pos hconst]
    interval_cases t.val <;> rfl
  · obtain ⟨h0, h1, h2, h3⟩ : t.val ≠ 0 ∧ t.val ≠ 1 ∧ t.val ≠ 2 ∧ t.val ≠ 3 := by omega
    rw [if_neg hconst, if_neg h0, if_neg h1, if_neg h2, if_neg h3]
    rfl

theorem specHchacha_length (r : Nat) (key n : List Byte) : (Spec.hchacha r key n).length = 32 := by
  simp [Spec.hchacha]

/-- The output words, taken from either form of the final state. -/
theorem hchacha_eq_fixed (r : Nat) (key : Vector Byte 32) (n : Vector Byte 16) :
    hchacha r key n = Spec.fixed 32 (Spec.hchacha r key.toList n.toList) := by
  have hfinal := (chaAgree_init key n).doubleRounds (r / 2)
  have hwords : Spec.hchacha r key.toList n.toList =
      [0, 1, 2, 3, 12, 13, 14, 15].flatMap fun t : Fin 16 =>
        bytesLE32 (doubleRounds (r / 2) (hchachaInit key n))[t] := by
    simp only [hfinal _, Spec.hchacha, List.flatMap_cons, List.flatMap_nil]
    rfl
  rw [hwords]
  rfl

/-- Settles O51: both forms cut the same 32 output bytes, by `hchacha_eq_fixed`. -/
theorem nonceExtensionFollowsItsRules : Obligations.NonceExtensionFollowsItsRules := by
  intro r key n
  have hlen := specHchacha_length r key.toList n.toList
  rw [hchacha_eq_fixed, toList_fixed hlen.ge, List.take_of_length_le hlen.le]

end Sys2Proof.Machine
end

section
/-! PROOFS. The nonce-extended stream: its bytes block by block, and that it is its own inverse
(41_stream.md R61, R64). -/

namespace Sys2Proof.Machine

/-- One more keystream block, at the end. -/
theorem keystream_succ (ksf : KstreamFn) (r : Nat) (key : Vector Byte 32) (nonce : Vector Byte 8) (nb : Nat) :
    keystream ksf r key nonce (nb + 1) =
      keystream ksf r key nonce nb ++ (ksf r key nonce (BitVec.ofNat 64 nb)).toList := by
  simp [keystream, List.range_succ]

/-- Byte `j` of the keystream is byte `j mod 64` of block `j / 64`, by induction on the number of blocks. -/
theorem keystream_getD (ksf : KstreamFn) (r : Nat) (key : Vector Byte 32) (nonce : Vector Byte 8) {nb j : Nat}
    (h : j < 64 * nb) :
    (keystream ksf r key nonce nb).getD j 0 =
      (ksf r key nonce (BitVec.ofNat 64 (j / 64))).toList.getD (j % 64) 0 := by
  induction nb with
  | zero => omega
  | succ nb ih =>
    have hlen := keystream_length ksf r key nonce nb
    rw [keystream_succ]
    by_cases hj : j < 64 * nb
    · rw [List.getD_append _ _ _ _ (by omega), ih hj]
    · have hblock : j / 64 = nb := by omega
      have hbyte : j - 64 * nb = j % 64 := by omega
      rw [List.getD_append_right _ _ _ _ (by omega), hlen, hblock, hbyte]

/-- There are keystream bytes enough for the message. -/
theorem le_ceilDiv_mul (n : Nat) : n ≤ 64 * ceilDiv n 64 := by
  simp only [ceilDiv]
  omega

/-- XOR with the same bytes twice changes nothing, when there are bytes enough. -/
theorem zipWith_xor_zipWith_xor {p k : List Byte} (h : p.length ≤ k.length) :
    List.zipWith (fun x y => x ^^^ y) (List.zipWith (fun x y => x ^^^ y) p k) k = p := by
  refine List.ext_getElem (by simp [h]) fun i _ hi => ?_
  rw [List.getElem_zipWith, List.getElem_zipWith, BitVec.xor_assoc, BitVec.xor_self, BitVec.xor_zero]

/-- The stream function is its own inverse: both passes have one keystream, that of the message's length. -/
theorem xstream_xstream (ksf : KstreamFn) (r : Nat) (key : Vector Byte 32) (p nu : List Byte) :
    xstream ksf r key (xstream ksf r key p nu) nu = p := by
  rw [xstream, xstream_length, xstream]
  exact zipWith_xor_zipWith_xor (by rw [keystream_length]; exact le_ceilDiv_mul _)

/-- The extended key is that of the rules. -/
theorem hchacha_subNonce (r : Nat) (key : Vector Byte 32) {nu : List Byte} (h : nu.length ≤ 23) :
    hchacha r key (subNonce (fullNonce nu)) =
      Spec.fixed 32 (Spec.hchacha r key.toList ((Spec.fullNonce nu).take 16)) := by
  rw [hchacha_eq_fixed, subNonce_toList, fullNonce_toList h]

/-- Settles O54, byte by byte. -/
theorem streamXorsBlockByBlock : Obligations.StreamXorsBlockByBlock := by
  intro r key p nu h
  refine List.ext_getElem (by simp [Spec.xstream]) fun j hj _ => ?_
  rw [xstream_length] at hj
  have hkey := keystream_getD Config.kstream r (hchacha r key (subNonce (fullNonce nu)))
    (innerNonce (fullNonce nu)) (Nat.lt_of_lt_of_le hj (le_ceilDiv_mul p.length))
  simp only [Spec.xstream, xstream, List.getElem_zipWith, List.getElem_map, List.getElem_range]
  rw [List.getD_eq_getElem _ _ hj, ← hchacha_subNonce r key h, ← fullNonce_toList h, ← innerNonce_eq_fixed,
    ← hkey, List.getD_eq_getElem]

end Sys2Proof.Machine
end

section
/-! PROOFS. The frame of the storing commands (41_stream.md R59, R63; 42_nh.md R72, R73; 43_combiner.md R77,
R78, R80). -/

namespace Sys2Proof.Machine

/-- A command, however it ends, leaves every byte outside its output range alone. -/
theorem exec_keeps_buf_outside {i : Instr} {s t : State} {r : Inflight} (hwf : s.buf.wf)
    (hr : s.inflight = some r) (h : exec i s = .next t) {a : Nat}
    (ha : (outRange i r.ops).holds a = false) : t.buf.read a = s.buf.read a := by
  obtain ⟨e, -, -, rfl⟩ | ⟨-, rfl⟩ := exec_next_of_inflight hr h
  · rfl
  · have hout : a < (outRange i r.ops).start ∨
        (outRange i r.ops).start + (outRange i r.ops).len ≤ a := by
      rw [Range.holds, Bool.and_eq_false_iff, decide_eq_false_iff_not, decide_eq_false_iff_not] at ha
      omega
    rw [commandEffect_buf]
    exact Buf.read_writeBytes_outside _ _ _ _ hwf (by rwa [outputBytes_length])

/-- A storing command, however it ends, keeps every key and OVR. -/
theorem exec_storing_keeps_keys_ovr {i : Instr} {s t : State} (hi : ∀ k, i ≠ .ldkey k)
    (h : exec i s = .next t) : t.keys = s.keys ∧ t.status.ovr = s.status.ovr := by
  obtain ⟨r, -, ⟨e, -, -, rfl⟩ | ⟨-, rfl⟩⟩ := exec_next h
  · exact ⟨rfl, rfl⟩
  · obtain ⟨-, -, -, hovr, -, -⟩ := commandEffect_completes i s r
    exact ⟨commandEffect_keys i s r hi, hovr⟩

/-- The backend latch changes only when a universal-hash command takes it. -/
theorem exec_backend_cases {i : Instr} {s t : State} (h : exec i s = .next t) :
    t.status.backend = s.status.backend ∨
      ((i = .nhChunk ∨ i = .nhMsg ∨ i = .hashA) ∧ s.status.backend = .notSelected ∧
        t.status.backend = s.backendAfterHash) := by
  by_cases hb : s.status.backend = .notSelected
  · have htaken := exec_takes_backend h hb
    split at htaken
    · next hhash => exact .inr ⟨hhash.1, hb, htaken.trans (if_pos hb).symm⟩
    · exact .inl (htaken.trans hb.symm)
  · exact .inl (exec_keeps_selected_backend h hb)

/-- Settles O19: `exec_frame` for what no command changes, and one lemma each for BUF, keys and latch. -/
theorem storingFrame : Obligations.StoringFrame := by
  intro i s t r hi hwf hr h
  obtain ⟨hrounds, hops, hparams, hcapVec, hscript, hrdata, hbreach, hdraws, -⟩ := exec_frame h
  obtain ⟨hkeys, hovr⟩ := exec_storing_keeps_keys_ovr hi h
  exact ⟨fun a => exec_keeps_buf_outside hwf hr h, hkeys, hrounds, hops, hovr, exec_backend_cases h, hparams,
    hcapVec, hscript, hrdata, hbreach, hdraws⟩

end Sys2Proof.Machine
end

section
/-! PROOFS. The checks of HCHACHA and XSTREAM say what their pseudocode says (20_memory.md R37, R38;
41_stream.md R59, R63; 60_exceptions.md R85, R86). -/

namespace Sys2Proof.Machine

/-- The first failing check, as one chain in the order of 60_exceptions.md R86. -/
theorem firstError_commandChecks_getD (i : Instr) (s : State) (r : Inflight) :
    (firstError (commandChecks i s r)).getD .none =
      if badRounds i r.rounds = true then .badRounds
      else if badKeyLen i r.ops = true then .badKeyLen
      else if badLength i r.ops = true then .badLength
      else if badRange i s.params r.ops = true then .range
      else if badOverlap i r.ops = true then .overlap
      else if keyMissing i s.keys = true then .keyNotLoaded
      else .none := by
  simp only [commandChecks, firstError, apply_ite (Option.getD · ErrCode.none), Option.getD_some,
    Option.getD_none]

theorem Range.legal_eq_false_iff (p : Params) (q : Range) :
    q.legal p = false ↔ q.start + q.len > p.bufSize := by
  simp [Range.legal]

/-- Intersection is that of 20_memory.md R38. -/
theorem Range.intersects_iff_meets (q q' : Range) :
    q.intersects q' = true ↔ Spec.meets q.start q.len q'.start q'.len := by
  simp [Range.intersects, Spec.meets, and_assoc]

/-- An input that may not be the output range clashes with it when they meet. -/
theorem Input.clashes_strict_iff (q out : Range) :
    Input.clashes { range := q, mayAlias := false } out = true ↔
      Spec.meets out.start out.len q.start q.len := by
  simp only [Input.clashes, Bool.false_and, Bool.not_false, Bool.and_true, Range.intersects_iff_meets]

/-- An input as long as the output, which it may be, clashes with it when they meet and start apart. -/
theorem Input.clashes_alias_iff (a b n : Nat) :
    Input.clashes { range := { start := a, len := n }, mayAlias := true } { start := b, len := n } = true ↔
      b ≠ a ∧ Spec.meets b n a n := by
  simp [Input.clashes, Range.intersects_iff_meets, and_comm]

theorem legalRounds_iff_toNat :
    ∀ r : BitVec 5, legalRounds r = true ↔ r.toNat = 8 ∨ r.toNat = 12 ∨ r.toNat = 20 := by decide

/-- BAD_ROUNDS of the two commands that use ROUNDS. -/
theorem not_legalRounds_iff (r : BitVec 5) :
    (!legalRounds r) = true ↔ ¬(r.toNat = 8 ∨ r.toNat = 12 ∨ r.toNat = 20) := by
  rw [Bool.not_eq_true', ← Bool.not_eq_true, legalRounds_iff_toNat]

theorem badRange_hchacha_iff (p : Params) (o : Operands) :
    badRange .hchacha p o = true ↔
      o.aux.toNat + 16 > p.bufSize ∨ o.dst.toNat + 32 > p.bufSize := by
  simp [badRange, outRange, inputs, Operands.dstRange, Operands.auxRange, Range.legal_eq_false_iff, or_comm]

theorem badRange_xstream_iff (p : Params) (o : Operands) :
    badRange .xstream p o = true ↔
      o.src.toNat + o.srcLen.toNat > p.bufSize ∨ o.aux.toNat + o.auxLen.toNat > p.bufSize ∨
        o.dst.toNat + o.srcLen.toNat > p.bufSize := by
  simp [badRange, outRange, inputs, Operands.dstRange, Operands.srcRange, Operands.auxRange,
    Range.legal_eq_false_iff, or_comm, or_assoc]

theorem badOverlap_hchacha_iff (o : Operands) :
    badOverlap .hchacha o = true ↔ Spec.meets o.dst.toNat 32 o.aux.toNat 16 := by
  simp only [badOverlap, inputs, List.any_cons, List.any_nil, Bool.or_false, Input.clashes_strict_iff]
  rfl

theorem badOverlap_xstream_iff (o : Operands) :
    badOverlap .xstream o = true ↔
      (o.dst.toNat ≠ o.src.toNat ∧ Spec.meets o.dst.toNat o.srcLen.toNat o.src.toNat o.srcLen.toNat) ∨
        Spec.meets o.dst.toNat o.srcLen.toNat o.aux.toNat o.auxLen.toNat := by
  simp only [badOverlap, inputs, List.any_cons, List.any_nil, Bool.or_false, Bool.or_eq_true,
    Input.clashes_strict_iff]
  exact or_congr (Input.clashes_alias_iff _ _ _) Iff.rfl

/-- KEY_NOT_LOADED of a command that reads KS alone. -/
theorem keyMissing_ks_iff {i : Instr} (hi : keysRead i = [.ks]) (st : KeyStore) :
    keyMissing i st = true ↔ st.ks.valid = false := by
  simp [keyMissing, hi, KeyStore.valid, KeyStore.get]

/-- The checks of HCHACHA report what its pseudocode raises. -/
theorem errorOf_hchacha (s : State) (r : Inflight) :
    Spec.errorOf .hchacha s.params s.keys r = (firstError (commandChecks .hchacha s r)).getD .none := by
  have hlen : badLength .hchacha r.ops = true ↔ r.ops.auxLen.toNat ≠ 16 := bne_iff_ne
  have hkey := keyMissing_ks_iff (i := .hchacha) rfl s.keys
  simp only [firstError_commandChecks_getD, Spec.errorOf, badRounds, not_legalRounds_iff, badKeyLen, hlen,
    badRange_hchacha_iff, badOverlap_hchacha_iff, hkey, Bool.false_eq_true, if_false]

/-- The checks of XSTREAM report what its pseudocode raises. -/
theorem errorOf_xstream (s : State) (r : Inflight) :
    Spec.errorOf .xstream s.params s.keys r = (firstError (commandChecks .xstream s r)).getD .none := by
  have hlen : badLength .xstream r.ops = true ↔ r.ops.auxLen.toNat > 23 := decide_eq_true_iff
  have hkey := keyMissing_ks_iff (i := .xstream) rfl s.keys
  simp only [firstError_commandChecks_getD, Spec.errorOf, badRounds, not_legalRounds_iff, badKeyLen, hlen,
    badRange_xstream_iff, badOverlap_xstream_iff, hkey, Bool.false_eq_true, if_false]

/-- The three legal values of ROUNDS, as numbers. -/
theorem rounds_toNat_of_legal {x : BitVec 5} (h : x = 8 ∨ x = 12 ∨ x = 20) :
    x.toNat = 8 ∨ x.toNat = 12 ∨ x.toNat = 20 := by
  rcases h with rfl | rfl | rfl <;> decide

end Sys2Proof.Machine
end

section
/-! PROOFS. HCHACHA and XSTREAM as commands: what they store, and that XSTREAM undoes itself in place
(41_stream.md R59, R63, R64). -/

namespace Sys2Proof.Machine

/-- A storing command leaves the state of 60_exceptions.md R87, with its output bytes stored. -/
theorem commandEffect_stored (i : Instr) (hi : ∀ k, i ≠ .ldkey k) (s : State) (r : Inflight) :
    commandEffect i s r =
      Spec.stored (beforeOutput i s) (outRange i r.ops).start (outputBytes i s r) := by
  rw [commandEffect_storing i hi, Spec.stored, outputBytes_length]
  rfl

theorem commandEffect_hchacha (s : State) (r : Inflight) :
    commandEffect .hchacha s r =
      Spec.stored s r.ops.dst.toNat
        (Spec.hchacha r.rounds.toNat s.keys.ks.bytes.toList (s.memRead r.ops.aux.toNat 16)) := by
  have hbytes := nonceExtensionFollowsItsRules r.rounds.toNat s.keys.ks.bytes
    (s.memReadVec r.ops.aux.toNat 16)
  rw [commandEffect_stored .hchacha nofun, outputBytes, hbytes, State.memReadVec_toList]
  rfl

theorem commandEffect_xstream (s : State) (r : Inflight) (hnonce : r.ops.auxLen.toNat ≤ 23) :
    commandEffect .xstream s r =
      Spec.stored s r.ops.dst.toNat
        (Spec.xstream r.rounds.toNat s.keys.ks.bytes.toList
          (s.memRead r.ops.src.toNat r.ops.srcLen.toNat) (s.memRead r.ops.aux.toNat r.ops.auxLen.toNat)) := by
  have hbytes := streamXorsBlockByBlock r.rounds.toNat s.keys.ks.bytes
    (s.memRead r.ops.src.toNat r.ops.srcLen.toNat) (s.memRead r.ops.aux.toNat r.ops.auxLen.toNat)
    (by rwa [State.memRead_length])
  rw [commandEffect_stored .xstream nofun, outputBytes, hbytes]
  rfl

/-- Settles O8: the word from `decode_eq_command_iff`, success and errors from `errorOf_hchacha`. -/
theorem hchachaWritesTheSubkey : Obligations.HchachaWritesTheSubkey := by
  refine ⟨fun w => decode_eq_command_iff w .hchacha, fun s r hr =>
    ⟨fun hrounds hlen haux hdst hapart hkey => ?_, exec_failed_of_errorOf hr (errorOf_hchacha s r)⟩⟩
  have hnone : Spec.errorOf .hchacha s.params s.keys r = .none := by
    simp only [Spec.errorOf]
    rw [if_neg (not_not.mpr (rounds_toNat_of_legal hrounds)), if_neg (not_not.mpr hlen), if_neg (by omega),
      if_neg hapart, if_neg (by simp [hkey])]
  rw [exec_effect_of_errorOf hr (errorOf_hchacha s r) hnone, commandEffect_hchacha]

/-- Settles O9: the word from `decode_eq_command_iff`, success and errors from `errorOf_xstream`. -/
theorem xstreamXorsTheKeystream : Obligations.XstreamXorsTheKeystream := by
  refine ⟨fun w => decode_eq_command_iff w .xstream, fun s r hr =>
    ⟨fun hrounds hlen hsrc haux hdst hmessage hnonce hkey => ?_,
      exec_failed_of_errorOf hr (errorOf_xstream s r)⟩⟩
  have hnone : Spec.errorOf .xstream s.params s.keys r = .none := by
    have hmessage' : ¬(r.ops.dst.toNat ≠ r.ops.src.toNat ∧
        Spec.meets r.ops.dst.toNat r.ops.srcLen.toNat r.ops.src.toNat r.ops.srcLen.toNat) :=
      fun ⟨hne, hmeets⟩ => hmessage.elim (fun hsame => hne (congrArg BitVec.toNat hsame)) (absurd hmeets)
    simp only [Spec.errorOf]
    rw [if_neg (not_not.mpr (rounds_toNat_of_legal hrounds)), if_neg (by omega), if_neg (by omega),
      if_neg (not_or.mpr ⟨hmessage', hnonce⟩), if_neg (by simp [hkey])]
  rw [exec_effect_of_errorOf hr (errorOf_xstream s r) hnone, commandEffect_xstream s r hlen]

/-- In place, the output of XSTREAM starts where its message does. -/
theorem outRange_xstream_start {o : Operands} (h : o.dst = o.src) :
    (outRange .xstream o).start = o.src.toNat := congrArg BitVec.toNat h

/-- MemRead of a range that does not meet a written one gives what it gave before. -/
theorem State.memRead_writeBytes_apart (s : State) (a b n : Nat) (bs : List Byte) (hwf : s.buf.wf)
    (h : ¬Spec.meets a bs.length b n) :
    { s with buf := s.buf.writeBytes a bs }.memRead b n = s.memRead b n := by
  refine List.map_congr_left fun j hj => s.buf.read_writeBytes_outside a (b + j) bs hwf ?_
  have hlt : j < n := List.mem_range.mp hj
  simp only [Spec.meets] at h
  omega

/-- Writing back the bytes that were there before a write restores BUF. -/
theorem State.read_writeBytes_back (s : State) (a x : Nat) (bs : List Byte) (hwf : s.buf.wf) :
    ((s.buf.writeBytes a bs).writeBytes a (s.memRead a bs.length)).read x = s.buf.read x := by
  rw [Buf.read_writeBytes _ _ _ _ (Buf.writeBytes_wf _ _ _ hwf), Buf.read_writeBytes _ _ _ _ hwf,
    State.memRead_length]
  split
  · next hin =>
    rw [List.getD_eq_getElem?_getD, s.memRead_getElem? _ _ _ (by omega), Nat.add_sub_cancel' hin.1]
    rfl
  · rfl

/-- The checks of XSTREAM leave its output apart from the nonce (20_memory.md R38). -/
theorem xstream_output_apart_from_nonce {s : State} {r : Inflight}
    (h : firstError (commandChecks .xstream s r) = none) :
    ¬Spec.meets r.ops.dst.toNat r.ops.srcLen.toNat r.ops.aux.toNat r.ops.auxLen.toNat := by
  obtain ⟨-, -, -, -, hoverlap, -⟩ := commandChecks_pass h
  rw [← Bool.not_eq_true, badOverlap_xstream_iff] at hoverlap
  exact fun hmeets => hoverlap (.inr hmeets)

/-- The second of two in-place XSTREAMs stores the message: it reads the first one's output and the same
nonce, which the first one left alone. -/
theorem outputBytes_xstream_again {s t : State} {r : Inflight} (hwf : s.buf.wf) (hdst : r.ops.dst = r.ops.src)
    (hpass : firstError (commandChecks .xstream s r) = none) (hkeys : t.keys = s.keys)
    (hbuf : t.buf = s.buf.writeBytes r.ops.src.toNat (outputBytes .xstream s r)) :
    outputBytes .xstream t r = s.memRead r.ops.src.toNat r.ops.srcLen.toNat := by
  have hlen : (outputBytes .xstream s r).length = r.ops.srcLen.toNat := outputBytes_length .xstream s r
  have hapart := xstream_output_apart_from_nonce hpass
  rw [hdst, ← hlen] at hapart
  have hread (a n : Nat) : t.memRead a n =
      { s with buf := s.buf.writeBytes r.ops.src.toNat (outputBytes .xstream s r) }.memRead a n :=
    State.memRead_congr hbuf a n
  have hsrc : t.memRead r.ops.src.toNat r.ops.srcLen.toNat = outputBytes .xstream s r := by
    rw [hread, ← hlen, s.memRead_writeBytes _ _ hwf]
  have hnonce : t.memRead r.ops.aux.toNat r.ops.auxLen.toNat =
      s.memRead r.ops.aux.toNat r.ops.auxLen.toNat := by
    rw [hread, s.memRead_writeBytes_apart _ _ _ _ hwf hapart]
  calc outputBytes .xstream t r
      = xstream Config.kstream r.rounds.toNat s.keys.ks.bytes (outputBytes .xstream s r)
          (s.memRead r.ops.aux.toNat r.ops.auxLen.toNat) := by rw [← hkeys, ← hnonce, ← hsrc]; rfl
    _ = s.memRead r.ops.src.toNat r.ops.srcLen.toNat := xstream_xstream _ _ _ _ _

/-- A command that ends without an error code has passed its checks and had its effect. -/
theorem exec_effect_of_errcode_none {i : Instr} {s t : State} {r : Inflight} (hr : s.inflight = some r)
    (h : exec i s = .next t) (hcode : t.status.errcode = .none) :
    firstError (commandChecks i s r) = none ∧ t = commandEffect i s r := by
  obtain ⟨e, hne, -, rfl⟩ | heffect := exec_next_of_inflight hr h
  · exact absurd hcode hne
  · exact heffect

/-- An XSTREAM issued on what an in-place one left behind passes the same checks and restores BUF. -/
theorem exec_xstream_again {s t u : State} {r : Inflight} (hwf : s.buf.wf) (hdst : r.ops.dst = r.ops.src)
    (hpass : firstError (commandChecks .xstream s r) = none) (hr : t.inflight = some r)
    (hparams : t.params = s.params) (hkeys : t.keys = s.keys)
    (hbuf : t.buf = s.buf.writeBytes r.ops.src.toNat (outputBytes .xstream s r))
    (hu : exec .xstream t = .next u) :
    u.status.errcode = .none ∧ ∀ a, u.buf.read a = s.buf.read a := by
  have hpass' : firstError (commandChecks .xstream t r) = none := by
    rwa [commandChecks_congr .xstream r hparams hkeys]
  obtain rfl : u = commandEffect .xstream t r := by
    rw [exec_eq_runCommand, runCommand_effect hr hpass'] at hu
    exact (Host.Outcome.next.inj hu).symm
  obtain ⟨-, -, -, -, hcode, -⟩ := commandEffect_completes .xstream t r
  have hlen : (outputBytes .xstream s r).length = r.ops.srcLen.toNat := outputBytes_length .xstream s r
  refine ⟨hcode, fun a => ?_⟩
  rw [commandEffect_buf, outRange_xstream_start hdst,
    outputBytes_xstream_again hwf hdst hpass hkeys hbuf, hbuf, ← hlen]
  exact s.read_writeBytes_back _ a _ hwf

/-- Settles O55: `xstream_xstream` for the function, `exec_xstream_again` for the two commands. -/
theorem xstreamTwiceRestoresTheMessage : Obligations.XstreamTwiceRestoresTheMessage := by
  refine ⟨xstream_xstream Config.kstream, fun s t u r hwf hr hdst ht hcode hu => ?_⟩
  obtain ⟨hpass, rfl⟩ := exec_effect_of_errcode_none hr ht hcode
  obtain ⟨-, -, hparams, -⟩ := commandEffect_frame .xstream s r
  have hbuf := commandEffect_buf .xstream s r
  rw [outRange_xstream_start hdst] at hbuf
  exact exec_xstream_again (t := { commandEffect .xstream s r with inflight := some r }) hwf hdst hpass rfl
    hparams (commandEffect_keys .xstream s r nofun) hbuf hu

end Sys2Proof.Machine
end

section
/-! PROOFS. No command's result depends on the backend latch or on CAP_VEC (10_state.md R32; 42_nh.md R70). -/

namespace Sys2Proof.Machine

/-- Two states with one record and one outcome of the checks, whose errors and effects look alike through a
view, end alike through that view. -/
theorem runCommand_mapNext_congr {checks : State → Inflight → List Check}
    {effect : State → Inflight → State} (f : State → State) {s s' : State}
    (hflight : s.inflight = s'.inflight) (hchecks : ∀ r, checks s r = checks s' r)
    (hraise : ∀ e, f (s.raise e) = f (s'.raise e)) (heffect : ∀ r, f (effect s r) = f (effect s' r)) :
    mapNext f (runCommand checks effect s) = mapNext f (runCommand checks effect s') := by
  cases hr : s'.inflight with
  | none => simp only [runCommand, hflight, hr, mapNext]
  | some r =>
    cases he : firstError (checks s' r) with
    | none => simp only [runCommand, hflight, hr, hchecks, he, heffect, mapNext]
    | some e => simp only [runCommand, hflight, hr, hchecks, he, hraise, mapNext]

theorem State.finish_hideBackend (s : State) (out : Range) (bs : List Byte) :
    (s.finish out bs).hideBackend = s.hideBackend.finish out bs := rfl

/-- The latch is all that a command changes before it computes its output. -/
theorem beforeOutput_hideBackend (i : Instr) (s : State) :
    (beforeOutput i s).hideBackend = s.hideBackend := by
  cases i <;> rfl

/-- The output bytes are the same whatever the latch and CAP_VEC: both paths give one digest. -/
theorem outputBytes_hideBackend (i : Instr) (s : State) (r : Inflight) :
    outputBytes i s.hideBackend r = outputBytes i s r :=
  outputBytes_eq_of_agree rfl fun _ _ _ _ => rfl

/-- The latch and CAP_VEC, hidden before a command's effect or only after it: no difference. -/
theorem commandEffect_hideBackend (i : Instr) (s : State) (r : Inflight) :
    (commandEffect i s.hideBackend r).hideBackend = (commandEffect i s r).hideBackend := by
  by_cases hi : ∀ k, i ≠ .ldkey k
  · rw [commandEffect_storing i hi, commandEffect_storing i hi, outputBytes_hideBackend,
      State.finish_hideBackend, State.finish_hideBackend, beforeOutput_hideBackend, beforeOutput_hideBackend]
    rfl
  · obtain ⟨k, rfl⟩ := not_forall_not.mp hi
    rfl

theorem exec_hideBackend (i : Instr) (s : State) :
    mapNext State.hideBackend (exec i s.hideBackend) = mapNext State.hideBackend (exec i s) := by
  rw [exec_eq_runCommand, exec_eq_runCommand]
  exact runCommand_mapNext_congr State.hideBackend rfl (fun _ => rfl) (fun _ => rfl)
    (commandEffect_hideBackend i s)

/-- Settles O42: either state may be replaced by the one with the latch and CAP_VEC hidden. -/
theorem backendNeverChangesAResult : Obligations.BackendNeverChangesAResult := by
  intro i s s' h
  rw [← exec_hideBackend i s, h, exec_hideBackend i s']

end Sys2Proof.Machine
end

section
/-! PROOFS. The words of a byte string, and the accumulators of the universal hash against the sum of natural
numbers of their rule (42_nh.md R66, R67, R71). -/

namespace Sys2Proof.Machine

theorem specWord_lt (bs : List Byte) (t : Nat) : Spec.word bs t < 2 ^ 32 := by
  have hlen : (slice bs (4 * t) 4).length ≤ 4 := by simp
  calc Spec.word bs t < 256 ^ (slice bs (4 * t) 4).length := leNat_lt _
    _ ≤ 256 ^ 4 := Nat.pow_le_pow_right (by decide) hlen

/-- Past its end a byte string has zero words. -/
theorem specWord_of_length_le {bs : List Byte} {t : Nat} (h : bs.length ≤ 4 * t) : Spec.word bs t = 0 := by
  rw [Spec.word, slice, List.drop_of_length_le h]
  rfl

/-- The words of whole strides of four bytes, past the end too, where both readings give 0. -/
theorem wordsLE_getD : ∀ (bs : List Byte) (_ : bs.length % 4 = 0) (t : Nat),
    (wordsLE bs).getD t 0 = BitVec.ofNat 32 (Spec.word bs t)
  | [], _, _ => by rw [specWord_of_length_le (Nat.zero_le _)]; rfl
  | [_], hlen, _ | [_, _], hlen, _ | [_, _, _], hlen, _ => by simp at hlen
  | _ :: _ :: _ :: _ :: _, _, 0 => rfl
  | _ :: _ :: _ :: _ :: rest, hlen, t + 1 =>
    wordsLE_getD rest ((Nat.add_mod_right rest.length 4).symm.trans hlen) t

theorem wordsLE_length : ∀ bs : List Byte, (wordsLE bs).length = bs.length / 4
  | [] | [_] | [_, _] | [_, _, _] => by simp [wordsLE]
  | _ :: _ :: _ :: _ :: rest =>
    (congrArg (· + 1) (wordsLE_length rest)).trans (Nat.add_div_right rest.length (by decide : 0 < 4)).symm

/-- A product of two 32-bit sums, on natural numbers (42_nh.md R67). -/
theorem nhProduct_ofNat (x y z w : Nat) :
    nhProduct (BitVec.ofNat 32 x) (BitVec.ofNat 32 y) (BitVec.ofNat 32 z) (BitVec.ofNat 32 w) =
      BitVec.ofNat 64 ((x + y) % 2 ^ 32 * ((z + w) % 2 ^ 32)) := by
  have hwiden (n : Nat) : (BitVec.ofNat 32 n).setWidth 64 = BitVec.ofNat 64 (n % 2 ^ 32) :=
    BitVec.eq_of_toNat_eq (by simp)
  rw [nhProduct, ← BitVec.ofNat_add, ← BitVec.ofNat_add, hwiden, hwiden, BitVec.ofNat_mul]

/-- What stride `q` adds to accumulator `i`, on natural numbers: the summand of `Spec.nhAccumulator`. -/
def strideSum (kn m : List Byte) (i q : Nat) : Nat :=
  (Spec.word m (4 * q) + Spec.word kn (4 * q + 4 * i)) % 2 ^ 32
      * ((Spec.word m (4 * q + 2) + Spec.word kn (4 * q + 4 * i + 2)) % 2 ^ 32)
    + (Spec.word m (4 * q + 1) + Spec.word kn (4 * q + 4 * i + 1)) % 2 ^ 32
      * ((Spec.word m (4 * q + 3) + Spec.word kn (4 * q + 4 * i + 3)) % 2 ^ 32)

theorem specNhAccumulator_eq (kn m : List Byte) (i : Nat) :
    Spec.nhAccumulator kn m i = (∑ q ∈ Finset.range (m.length / 16), strideSum kn m i q) % 2 ^ 64 := rfl

theorem nhStride_wordsLE {kn m : List Byte} (hkn : kn.length % 4 = 0) (hm : m.length % 4 = 0) (i q : Nat) :
    nhStride (wordsLE kn) (wordsLE m) i (4 * q) = BitVec.ofNat 64 (strideSum kn m i q) := by
  simp only [nhStride, wordsLE_getD kn hkn, wordsLE_getD m hm, nhProduct_ofNat, strideSum, BitVec.ofNat_add]

/-- A sum of lanes, taken one by one, is the lane of the sum. -/
theorem foldl_add_ofNat (f : Nat → Nat) (n : Nat) :
    (List.range n).foldl (fun (h : Lane) q => h + BitVec.ofNat 64 (f q)) 0 =
      BitVec.ofNat 64 (∑ q ∈ Finset.range n, f q) := by
  induction n with
  | zero => rfl
  | succ n ih =>
    rw [List.range_succ, List.foldl_append, ih, Finset.sum_range_succ, BitVec.ofNat_add]
    rfl

/-- Accumulator `i` is the sum of its rule, of one term per 16 bytes. -/
theorem nhAccumulator_wordsLE {kn m : List Byte} (hkn : kn.length % 4 = 0) (hm : m.length % 4 = 0) (i : Nat) :
    nhAccumulator (wordsLE kn) (wordsLE m) i =
      BitVec.ofNat 64 (∑ q ∈ Finset.range (m.length / 16), strideSum kn m i q) := by
  simp only [nhAccumulator, nhStride_wordsLE hkn hm, foldl_add_ofNat, wordsLE_length, Nat.div_div_eq_div_mul]

end Sys2Proof.Machine
end

section
/-! PROOFS. Both paths of the universal hash compute the digest of its rule, chunk by chunk (42_nh.md R66, R68,
R70, R71). -/

namespace Sys2Proof.Machine

theorem knBytes_length_mod (kn : Vector Byte 1072) : kn.toList.length % 4 = 0 := by simp

theorem nhAccumulator_toNat (kn : Vector Byte 1072) {m : List Byte} (hm : m.length % 16 = 0) (i : Nat) :
    (nhAccumulator (wordsLE kn.toList) (wordsLE m) i).toNat = Spec.nhAccumulator kn.toList m i := by
  rw [nhAccumulator_wordsLE (knBytes_length_mod kn) (by omega), BitVec.toNat_ofNat, specNhAccumulator_eq]

/-- The PORTABLE path gives the digest of the rule. -/
theorem nhPortable_eq_specNhDigest (kn : Vector Byte 1072) {m : List Byte} (hm : m.length % 16 = 0) :
    nhPortable kn m = Spec.nhDigest kn.toList m := by
  simp only [nhPortable, bytesLE64, nhAccumulator_toNat kn hm, Spec.nhDigest]

/-- NH gives the digest of the rule whatever the latch. -/
theorem nh_eq_specNhDigest (b : Backend) (kn : Vector Byte 1072) {m : List Byte} (hm : m.length % 16 = 0) :
    nh b kn m = Spec.nhDigest kn.toList m := by
  rw [nh_eq_nhPortable, nhPortable_eq_specNhDigest kn hm]

/-- Settles O44: `nhPortable_eq_specNhDigest`, and `vectorLanes_eq` for the lanes. -/
theorem bothPathsComputeTheDigest : Obligations.BothPathsComputeTheDigest := by
  intro kn m hm
  refine ⟨nhPortable_eq_specNhDigest kn hm, ?_, ?_⟩
  · rw [nhVector_eq_nhPortable, nhPortable_eq_specNhDigest kn hm]
  · simp only [vectorLanes_eq, ← nhAccumulator_eq_from, nhAccumulator_toNat kn hm, and_self]

theorem chunkCount_eq (n : Nat) : chunkCount n = (n + 1023) / 1024 := by
  rw [chunkCount, ceilDiv, Nat.add_sub_assoc (by decide)]

/-- The raw chunk ends with the message, whether 1024 bytes are asked for or those that are left. -/
theorem chunkAt_eq_specChunk (l : List Byte) (q : Nat) : chunkAt l q = Spec.chunk l q := by
  have hraw : slice l (1024 * q) 1024 =
      slice l (1024 * q) (min (1024 * (q + 1)) l.length - 1024 * q) := by
    rw [slice, slice, List.take_eq_take_iff, List.length_drop]
    omega
  rw [chunkAt, hraw]
  rfl

/-- A padded chunk is whole strides. -/
theorem padChunk_length_mod (raw : List Byte) : (padChunk raw).length % 16 = 0 := by
  rw [padChunk, List.length_append, zeros_length]
  omega

theorem nh_chunkAt (b : Backend) (kn : Vector Byte 1072) (l : List Byte) (q : Nat) :
    nh b kn (chunkAt l q) = Spec.nhDigest kn.toList (Spec.chunk l q) := by
  have hlen : (chunkAt l q).length % 16 = 0 := padChunk_length_mod _
  rw [nh_eq_specNhDigest b kn hlen, chunkAt_eq_specChunk]

theorem nhMessage_eq_specNhMsg (b : Backend) (kn : Vector Byte 1072) (l : List Byte) :
    nhMessage b kn l = Spec.nhMsg kn.toList l := by
  simp only [nhMessage, nh_chunkAt, chunkCount_eq, Spec.nhMsg]

/-- Settles O49: the digests by `nhMessage_eq_specNhMsg`, their number by `nhMessage_length`. -/
theorem messageIsHashedChunkByChunk : Obligations.MessageIsHashedChunkByChunk :=
  fun b kn l => ⟨nhMessage_eq_specNhMsg b kn l, by rw [nhMessage_length, chunkCount_eq], rfl⟩

end Sys2Proof.Machine
end

section
/-! PROOFS. Sixteen zero bytes more add the products of the key words alone (42_nh.md R66, R69). -/

namespace Sys2Proof.Machine

/-- Zero bytes at the end change no word: past the end they read 0 with or without them. -/
theorem specWord_append_zeros (bs : List Byte) (n t : Nat) : Spec.word (bs ++ zeros n) t = Spec.word bs t := by
  have hslice : slice (bs ++ zeros n) (4 * t) 4 =
      slice bs (4 * t) 4 ++ zeros (min (4 - (bs.drop (4 * t)).length) (n - (4 * t - bs.length))) := by
    simp only [slice, zeros, List.drop_append, List.take_append, List.drop_replicate, List.take_replicate]
  rw [Spec.word, hslice, leNat_append, leNat_zeros, Nat.mul_zero, Nat.add_zero, Spec.word]

theorem strideSum_append_zeros (kn m : List Byte) (n i q : Nat) :
    strideSum kn (m ++ zeros n) i q = strideSum kn m i q := by
  simp only [strideSum, specWord_append_zeros]

/-- A stride past the end of the message is of the key words alone. -/
theorem strideSum_of_length_le (kn : List Byte) {m : List Byte} {q : Nat} (h : m.length ≤ 16 * q) (i : Nat) :
    strideSum kn m i q =
      Spec.word kn (4 * q + 4 * i) * Spec.word kn (4 * q + 4 * i + 2)
        + Spec.word kn (4 * q + 4 * i + 1) * Spec.word kn (4 * q + 4 * i + 3) := by
  have hzero (j : Nat) : Spec.word m (4 * q + j) = 0 := specWord_of_length_le (by omega)
  have hkey (t : Nat) : (0 + Spec.word kn t) % 2 ^ 32 = Spec.word kn t := by
    rw [Nat.zero_add, Nat.mod_eq_of_lt (specWord_lt kn t)]
  have hzero0 : Spec.word m (4 * q) = 0 := hzero 0
  simp only [strideSum, hzero0, hzero, hkey]

/-- The two products of 42_nh.md R69 that padding by one stride adds to accumulator `i`. -/
def paddingTerm (kn m : List Byte) (i : Nat) : Lane :=
  BitVec.ofNat 64 (Spec.word kn (m.length / 4 + 4 * i) * Spec.word kn (m.length / 4 + 4 * i + 2))
    + BitVec.ofNat 64 (Spec.word kn (m.length / 4 + 4 * i + 1) * Spec.word kn (m.length / 4 + 4 * i + 3))

theorem nhAccumulator_append_zeros (kn : Vector Byte 1072) {m : List Byte} (hm : m.length % 16 = 0) (i : Nat) :
    nhAccumulator (wordsLE kn.toList) (wordsLE (m ++ zeros 16)) i =
      nhAccumulator (wordsLE kn.toList) (wordsLE m) i + paddingTerm kn.toList m i := by
  have hlen : (m ++ zeros 16).length = m.length + 16 := by simp
  have hstrides : (m.length + 16) / 16 = m.length / 16 + 1 := by omega
  have hword : m.length / 4 = 4 * (m.length / 16) := by omega
  rw [nhAccumulator_wordsLE (knBytes_length_mod kn) (by omega),
    nhAccumulator_wordsLE (knBytes_length_mod kn) (by omega), hlen, hstrides, Finset.sum_range_succ,
    BitVec.ofNat_add]
  simp only [strideSum_append_zeros]
  rw [strideSum_of_length_le kn.toList (by omega), BitVec.ofNat_add, paddingTerm, hword]

theorem bytesLE64_inj {x y : Lane} (h : bytesLE64 x = bytesLE64 y) : x = y := by
  have hval := congrArg leNat h
  rw [bytesLE64, bytesLE64, leNat_bytesLE, leNat_bytesLE] at hval
  exact BitVec.eq_of_toNat_eq ((Nat.mod_eq_of_lt x.isLt).symm.trans (hval.trans (Nat.mod_eq_of_lt y.isLt)))

/-- A digest determines its first accumulator. -/
theorem nhAccumulator_zero_of_nhPortable_eq {kn : Vector Byte 1072} {m m' : List Byte}
    (h : nhPortable kn m = nhPortable kn m') :
    nhAccumulator (wordsLE kn.toList) (wordsLE m) 0 = nhAccumulator (wordsLE kn.toList) (wordsLE m') 0 := by
  simp only [nhPortable, List.append_assoc] at h
  exact bytesLE64_inj (List.append_inj_left h (by simp [bytesLE64]))

/-- Where the two products do not sum to 0, padding changes the digest. -/
theorem nhPortable_append_zeros_ne (kn : Vector Byte 1072) {m : List Byte} (hm : m.length % 16 = 0)
    (hterm : paddingTerm kn.toList m 0 ≠ 0) : nhPortable kn (m ++ zeros 16) ≠ nhPortable kn m := by
  intro h
  have hacc := nhAccumulator_zero_of_nhPortable_eq h
  rw [nhAccumulator_append_zeros kn hm] at hacc
  exact hterm (by simpa using hacc)

/-- Settles O50. The key whose bytes are all 1 has no zero word, and the chunk may be any. -/
theorem paddingChangesTheDigest : Obligations.PaddingChangesTheDigest :=
  ⟨fun kn _ i hm => nhAccumulator_append_zeros kn hm i,
    Vector.replicate 1072 1, zeros 16, rfl, nhPortable_append_zeros_ne _ rfl (by decide)⟩

end Sys2Proof.Machine
end

section
/-! PROOFS. NH_CHUNK and NH_MSG as commands: their checks say what their pseudocode says, and what they store
(20_memory.md R37, R38; 42_nh.md R72, R73; 60_exceptions.md R85, R86). -/

namespace Sys2Proof.Machine

theorem badLength_nhChunk_iff (o : Operands) :
    badLength .nhChunk o = true ↔
      o.srcLen.toNat % 16 ≠ 0 ∨ o.srcLen.toNat < 16 ∨ o.srcLen.toNat > 1024 := by
  simp only [badLength, Bool.or_eq_true, bne_iff_ne, decide_eq_true_eq, or_assoc, gt_iff_lt]

/-- RANGE of a command whose one input is the message at SRC and whose output is `n` bytes at DST. -/
theorem badRange_iff_of_src_dst {i : Instr} {o : Operands} {n : Nat}
    (hin : inputs i o = [{ range := o.srcRange o.srcLen.toNat, mayAlias := false }])
    (hout : outRange i o = o.dstRange n) (p : Params) :
    badRange i p o = true ↔ o.src.toNat + o.srcLen.toNat > p.bufSize ∨ o.dst.toNat + n > p.bufSize := by
  simp [badRange, hin, hout, Operands.dstRange, Operands.srcRange, Range.legal_eq_false_iff, or_comm]

/-- OVERLAP of a command whose one input is the message at SRC and whose output is `n` bytes at DST. -/
theorem badOverlap_iff_of_src_dst {i : Instr} {o : Operands} {n : Nat}
    (hin : inputs i o = [{ range := o.srcRange o.srcLen.toNat, mayAlias := false }])
    (hout : outRange i o = o.dstRange n) :
    badOverlap i o = true ↔ Spec.meets o.dst.toNat n o.src.toNat o.srcLen.toNat := by
  simp only [badOverlap, hin, hout, List.any_cons, List.any_nil, Bool.or_false, Input.clashes_strict_iff]
  rfl

/-- KEY_NOT_LOADED of a command that reads KN alone. -/
theorem keyMissing_kn_iff {i : Instr} (hi : keysRead i = [.kn]) (st : KeyStore) :
    keyMissing i st = true ↔ st.kn.valid = false := by
  simp [keyMissing, hi, KeyStore.valid, KeyStore.get]

/-- The checks of NH_CHUNK report what its pseudocode raises. -/
theorem errorOf_nhChunk (s : State) (r : Inflight) :
    Spec.errorOf .nhChunk s.params s.keys r = (firstError (commandChecks .nhChunk s r)).getD .none := by
  have hrange := badRange_iff_of_src_dst (i := .nhChunk) (o := r.ops) rfl rfl s.params
  have hoverlap := badOverlap_iff_of_src_dst (i := .nhChunk) (o := r.ops) rfl rfl
  have hkey := keyMissing_kn_iff (i := .nhChunk) rfl s.keys
  simp only [firstError_commandChecks_getD, Spec.errorOf, badRounds, badKeyLen, badLength_nhChunk_iff, hrange,
    hoverlap, hkey, Bool.false_eq_true, if_false]

/-- The checks of NH_MSG report what its pseudocode raises. -/
theorem errorOf_nhMsg (s : State) (r : Inflight) :
    Spec.errorOf .nhMsg s.params s.keys r = (firstError (commandChecks .nhMsg s r)).getD .none := by
  have hrange := badRange_iff_of_src_dst (i := .nhMsg) (o := r.ops) rfl rfl s.params
  have hoverlap := badOverlap_iff_of_src_dst (i := .nhMsg) (o := r.ops) rfl rfl
  have hkey := keyMissing_kn_iff (i := .nhMsg) rfl s.keys
  simp only [firstError_commandChecks_getD, Spec.errorOf, badRounds, badKeyLen, badLength, hrange, hoverlap,
    chunkCount_eq, hkey, Bool.false_eq_true, if_false]

theorem specLatched_eq_latchBackend (s : State) : Spec.latched s = s.latchBackend := by
  rw [Spec.latched, ← State.latchBackend_status_backend]
  rfl

theorem commandEffect_nhChunk (s : State) (r : Inflight) (hlen : r.ops.srcLen.toNat % 16 = 0) :
    commandEffect .nhChunk s r =
      Spec.stored (Spec.latched s) r.ops.dst.toNat
        (Spec.nhDigest s.keys.kn.bytes.toList (s.memRead r.ops.src.toNat r.ops.srcLen.toNat)) := by
  rw [commandEffect_stored .nhChunk nofun, outputBytes, nh_eq_specNhDigest _ _ (by rwa [State.memRead_length]),
    specLatched_eq_latchBackend]
  rfl

theorem commandEffect_nhMsg (s : State) (r : Inflight) :
    commandEffect .nhMsg s r =
      Spec.stored (Spec.latched s) r.ops.dst.toNat
        (Spec.nhMsg s.keys.kn.bytes.toList (s.memRead r.ops.src.toNat r.ops.srcLen.toNat)) := by
  rw [commandEffect_stored .nhMsg nofun, outputBytes, nhMessage_eq_specNhMsg, specLatched_eq_latchBackend]
  rfl

/-- Settles O10: the word from `decode_eq_command_iff`, success and errors from `errorOf_nhChunk`. -/
theorem nhChunkWritesTheDigest : Obligations.NhChunkWritesTheDigest := by
  refine ⟨fun w => decode_eq_command_iff w .nhChunk, fun s r hr =>
    ⟨fun hmod hmin hmax hsrc hdst hapart hkey => ?_, exec_failed_of_errorOf hr (errorOf_nhChunk s r)⟩⟩
  have hnone : Spec.errorOf .nhChunk s.params s.keys r = .none := by
    simp only [Spec.errorOf]
    rw [if_neg (by omega), if_neg (by omega), if_neg hapart, if_neg (by simp [hkey])]
  rw [exec_effect_of_errorOf hr (errorOf_nhChunk s r) hnone, commandEffect_nhChunk s r hmod]

/-- Settles O11: the word from `decode_eq_command_iff`, success and errors from `errorOf_nhMsg`. -/
theorem nhMsgWritesTheDigests : Obligations.NhMsgWritesTheDigests := by
  refine ⟨fun w => decode_eq_command_iff w .nhMsg, fun s r hr =>
    ⟨fun hsrc hdst hapart hkey => ?_, exec_failed_of_errorOf hr (errorOf_nhMsg s r)⟩⟩
  have hnone : Spec.errorOf .nhMsg s.params s.keys r = .none := by
    simp only [Spec.errorOf]
    rw [if_neg (by omega), if_neg hapart, if_neg (by simp [hkey])]
  rw [exec_effect_of_errorOf hr (errorOf_nhMsg s r) hnone, commandEffect_nhMsg]

end Sys2Proof.Machine
end

section
/-! PROOFS. 128-bit arithmetic in two lanes: each combiner, as a number, is the sum or the difference mod 2^128,
and so the two undo each other (43_combiner.md R74 to R76). -/

namespace Sys2Proof.Machine

/-- Two lanes written out one after the other: lane 0 is the low half of the value. -/
theorem leNat_bytesLE64_append (x y : Lane) :
    leNat (bytesLE64 x ++ bytesLE64 y) = x.toNat + 2 ^ 64 * y.toNat := by
  have hlane (z : Lane) : leNat (bytesLE64 z) = z.toNat := by
    rw [bytesLE64, leNat_bytesLE]
    exact Nat.mod_eq_of_lt z.isLt
  rw [leNat_append, hlane, hlane, bytesLE64, bytesLE_length]
  norm_num

/-- A byte string of at most 8 bytes, read as a lane, keeps its value. -/
theorem le64_toNat {bs : List Byte} (h : bs.length ≤ 8) : (le64 bs).toNat = leNat bs := by
  have hpow : 256 ^ bs.length ≤ 256 ^ 8 := Nat.pow_le_pow_right (by decide) h
  rw [le64, BitVec.toNat_ofNat]
  exact Nat.mod_eq_of_lt ((leNat_lt bs).trans_le hpow)

/-- The value of a 16-byte string, from the two lanes the combiners read. -/
theorem leNat_eq_lanes {x : List Byte} (hx : x.length = 16) :
    leNat x = (le64 (slice x 0 8)).toNat + 2 ^ 64 * (le64 (slice x 8 8)).toNat := by
  have hsplit : x = slice x 0 8 ++ slice x 8 8 := by
    have hhigh : (x.drop 8).take 8 = x.drop 8 := List.take_of_length_le (by simp [hx])
    rw [slice, slice, List.drop_zero, hhigh, List.take_append_drop]
  have hlow : (slice x 0 8).length = 8 := by simp [hx]
  calc leNat x = leNat (slice x 0 8 ++ slice x 8 8) := congrArg leNat hsplit
    _ = leNat (slice x 0 8) + 2 ^ 64 * leNat (slice x 8 8) := by rw [leNat_append, hlow]; norm_num
    _ = _ := by rw [le64_toNat (by simp), le64_toNat (by simp)]

/-- The sum in two lanes: lane 0 overflows exactly when its sum is below its first operand, and the carry is
worth one in lane 1. -/
theorem addLanes_toNat (a0 a1 b0 b1 : Lane) :
    (a0 + b0).toNat + 2 ^ 64 * (a1 + b1 + if (a0 + b0).toNat < a0.toNat then 1 else 0).toNat =
      (a0.toNat + 2 ^ 64 * a1.toNat + (b0.toNat + 2 ^ 64 * b1.toNat)) % 2 ^ 128 := by
  split <;> bv_omega

/-- The difference in two lanes: lane 0 borrows exactly when its first operand is the smaller one, and the borrow
is worth one in lane 1. -/
theorem subLanes_toNat (a0 a1 b0 b1 : Lane) :
    (a0 - b0).toNat + 2 ^ 64 * (a1 - b1 - if a0.toNat < b0.toNat then 1 else 0).toNat =
      (2 ^ 128 + (a0.toNat + 2 ^ 64 * a1.toNat) - (b0.toNat + 2 ^ 64 * b1.toNat)) % 2 ^ 128 := by
  split <;> bv_omega

theorem leNat_add128 {a b : List Byte} (ha : a.length = 16) (hb : b.length = 16) :
    leNat (add128 a b) = (leNat a + leNat b) % 2 ^ 128 := by
  rw [leNat_eq_lanes ha, leNat_eq_lanes hb, ← addLanes_toNat, add128, leNat_bytesLE64_append]

theorem leNat_sub128 {a b : List Byte} (ha : a.length = 16) (hb : b.length = 16) :
    leNat (sub128 a b) = (2 ^ 128 + leNat a - leNat b) % 2 ^ 128 := by
  rw [leNat_eq_lanes ha, leNat_eq_lanes hb, ← subLanes_toNat, sub128, leNat_bytesLE64_append]

/-- A 16-byte string is the bytes of its value. -/
theorem eq_bytesLE_of_leNat {x : List Byte} {v : Nat} (hx : x.length = 16) (h : leNat x = v) :
    x = bytesLE 16 v := by
  rw [← h, ← hx, bytesLE_leNat]

/-- Settles O46, by the value of the sum. -/
theorem add128IsTheSumMod2To128 : Obligations.Add128IsTheSumMod2To128 :=
  fun a b ha hb => eq_bytesLE_of_leNat (add128_length a b) (leNat_add128 ha hb)

/-- Settles O47, by the value of the difference. -/
theorem sub128IsTheDifferenceMod2To128 : Obligations.Sub128IsTheDifferenceMod2To128 :=
  fun a b ha hb => eq_bytesLE_of_leNat (sub128_length a b) (leNat_sub128 ha hb)

/-- Settles O48: the values agree mod 2^128, and 16 bytes hold no more than that. -/
theorem combinersAreInverse : Obligations.CombinersAreInverse := by
  intro x y hx hy
  have hxlt := leNat_lt x
  have hylt := leNat_lt y
  rw [hx] at hxlt
  rw [hy] at hylt
  refine ⟨leNat_inj _ _ (by simp [hx]) ?_, leNat_inj _ _ (by simp [hx]) ?_⟩
  · rw [leNat_sub128 (add128_length x y) hy, leNat_add128 hx hy]
    omega
  · rw [leNat_add128 (sub128_length x y) hy, leNat_sub128 hx hy]
    omega

end Sys2Proof.Machine
end

section
/-! PROOFS. ADD128, SUB128 and HASH_A as commands: their checks say what their pseudocode says, and what they
store (20_memory.md R37, R38; 43_combiner.md R77 to R80; 60_exceptions.md R85, R86). -/

namespace Sys2Proof.Machine

/-- RANGE of a command whose two inputs are at SRC and at AUX and whose output is `k` bytes at DST. -/
theorem badRange_iff_of_src_aux_dst {i : Instr} {o : Operands} {m n k : Nat} {may : Bool}
    (hin : inputs i o =
      [{ range := o.srcRange m, mayAlias := may }, { range := o.auxRange n, mayAlias := may }])
    (hout : outRange i o = o.dstRange k) (p : Params) :
    badRange i p o = true ↔
      o.src.toNat + m > p.bufSize ∨ o.aux.toNat + n > p.bufSize ∨ o.dst.toNat + k > p.bufSize := by
  simp [badRange, hin, hout, Operands.dstRange, Operands.srcRange, Operands.auxRange,
    Range.legal_eq_false_iff, or_comm, or_assoc]

theorem badLength_add128_iff (o : Operands) :
    badLength .add128 o = true ↔ o.srcLen.toNat ≠ 16 ∨ o.auxLen.toNat ≠ 16 := by
  simp only [badLength, Bool.or_eq_true, bne_iff_ne]

theorem badOverlap_add128_iff (o : Operands) :
    badOverlap .add128 o = true ↔
      (o.dst.toNat ≠ o.src.toNat ∧ Spec.meets o.dst.toNat 16 o.src.toNat 16) ∨
        (o.dst.toNat ≠ o.aux.toNat ∧ Spec.meets o.dst.toNat 16 o.aux.toNat 16) := by
  simp only [badOverlap, inputs, List.any_cons, List.any_nil, Bool.or_false, Bool.or_eq_true]
  exact or_congr (Input.clashes_alias_iff _ _ _) (Input.clashes_alias_iff _ _ _)

theorem badOverlap_hashA_iff (o : Operands) :
    badOverlap .hashA o = true ↔
      Spec.meets o.dst.toNat 16 o.src.toNat o.srcLen.toNat ∨
        Spec.meets o.dst.toNat 16 o.aux.toNat o.auxLen.toNat := by
  simp only [badOverlap, inputs, List.any_cons, List.any_nil, Bool.or_false, Bool.or_eq_true,
    Input.clashes_strict_iff]
  rfl

/-- KEY_NOT_LOADED of HASH_A: any one of its three keys is enough. -/
theorem keyMissing_hashA_iff (st : KeyStore) :
    keyMissing .hashA st = true ↔ st.kt.valid = false ∨ st.km.valid = false ∨ st.kn.valid = false := by
  simp [keyMissing, keysRead, KeyStore.valid, KeyStore.get]

/-- The checks of ADD128 report what its pseudocode raises. -/
theorem errorOf_add128 (s : State) (r : Inflight) :
    Spec.errorOf .add128 s.params s.keys r = (firstError (commandChecks .add128 s r)).getD .none := by
  have hrange := badRange_iff_of_src_aux_dst (i := .add128) (o := r.ops) rfl rfl s.params
  have hkey : keyMissing .add128 s.keys = false := rfl
  simp only [firstError_commandChecks_getD, Spec.errorOf, badRounds, badKeyLen, badLength_add128_iff, hrange,
    badOverlap_add128_iff, hkey, Bool.false_eq_true, if_false]

/-- SUB128 has the checks and the pseudocode's errors of ADD128 (43_combiner.md R78). -/
theorem errorOf_sub128 (s : State) (r : Inflight) :
    Spec.errorOf .sub128 s.params s.keys r = (firstError (commandChecks .sub128 s r)).getD .none :=
  errorOf_add128 s r

/-- The checks of HASH_A report what its pseudocode raises. -/
theorem errorOf_hashA (s : State) (r : Inflight) :
    Spec.errorOf .hashA s.params s.keys r = (firstError (commandChecks .hashA s r)).getD .none := by
  have hrange := badRange_iff_of_src_aux_dst (i := .hashA) (o := r.ops) rfl rfl s.params
  simp only [firstError_commandChecks_getD, Spec.errorOf, badRounds, badKeyLen, badLength, hrange,
    badOverlap_hashA_iff, keyMissing_hashA_iff, Bool.false_eq_true, if_false]

/-- The pseudocode of ADD128 raises nothing on 16-byte operands in BUF that DST equals or does not meet. -/
theorem errorOf_add128_eq_none {p : Params} {r : Inflight} (st : KeyStore)
    (hsrcLen : r.ops.srcLen.toNat = 16) (hauxLen : r.ops.auxLen.toNat = 16)
    (hsrc : r.ops.src.toNat + 16 ≤ p.bufSize) (haux : r.ops.aux.toNat + 16 ≤ p.bufSize)
    (hdst : r.ops.dst.toNat + 16 ≤ p.bufSize)
    (hsrcAlias : r.ops.dst = r.ops.src ∨ ¬Spec.meets r.ops.dst.toNat 16 r.ops.src.toNat 16)
    (hauxAlias : r.ops.dst = r.ops.aux ∨ ¬Spec.meets r.ops.dst.toNat 16 r.ops.aux.toNat 16) :
    Spec.errorOf .add128 p st r = .none := by
  have hapart {a b : Word} (h : a = b ∨ ¬Spec.meets a.toNat 16 b.toNat 16) :
      ¬(a.toNat ≠ b.toNat ∧ Spec.meets a.toNat 16 b.toNat 16) :=
    fun ⟨hne, hmeets⟩ => h.elim (fun heq => hne (congrArg BitVec.toNat heq)) (· hmeets)
  simp only [Spec.errorOf]
  rw [if_neg (by omega), if_neg (by omega), if_neg (not_or.mpr ⟨hapart hsrcAlias, hapart hauxAlias⟩)]

theorem commandEffect_add128 (s : State) (r : Inflight) :
    commandEffect .add128 s r =
      Spec.stored s r.ops.dst.toNat
        (Spec.sum128 (s.memRead r.ops.src.toNat 16) (s.memRead r.ops.aux.toNat 16)) := by
  rw [commandEffect_stored .add128 nofun, outputBytes,
    add128IsTheSumMod2To128 _ _ (s.memRead_length _ _) (s.memRead_length _ _)]
  rfl

theorem commandEffect_sub128 (s : State) (r : Inflight) :
    commandEffect .sub128 s r =
      Spec.stored s r.ops.dst.toNat
        (Spec.diff128 (s.memRead r.ops.src.toNat 16) (s.memRead r.ops.aux.toNat 16)) := by
  rw [commandEffect_stored .sub128 nofun, outputBytes,
    sub128IsTheDifferenceMod2To128 _ _ (s.memRead_length _ _) (s.memRead_length _ _)]
  rfl

/-- HASH_A's function is that of its rule, whatever the latch (43_combiner.md R79). -/
theorem hashA_eq_specHashA (b : Backend) (st : KeyStore) (t l : List Byte) :
    hashA Config.mac b st t l = Spec.hashA st t l := by
  rw [hashA, nhMessage_eq_specNhMsg,
    add128IsTheSumMod2To128 _ _ Vector.length_toList Vector.length_toList]
  rfl

theorem commandEffect_hashA (s : State) (r : Inflight) :
    commandEffect .hashA s r =
      Spec.stored (Spec.latched s) r.ops.dst.toNat
        (Spec.hashA s.keys (s.memRead r.ops.aux.toNat r.ops.auxLen.toNat)
          (s.memRead r.ops.src.toNat r.ops.srcLen.toNat)) := by
  rw [commandEffect_stored .hashA nofun, outputBytes, hashA_eq_specHashA, specLatched_eq_latchBackend]
  rfl

/-- Settles O12: the word from `decode_eq_command_iff`, success and errors from `errorOf_hashA`. -/
theorem hashAWritesTheHash : Obligations.HashAWritesTheHash := by
  refine ⟨fun w => decode_eq_command_iff w .hashA, fun s r hr =>
    ⟨fun hsrc haux hdst hsrcApart hauxApart hkt hkm hkn => ?_, exec_failed_of_errorOf hr (errorOf_hashA s r)⟩⟩
  have hnone : Spec.errorOf .hashA s.params s.keys r = .none := by
    simp only [Spec.errorOf]
    rw [if_neg (by omega), if_neg (not_or.mpr ⟨hsrcApart, hauxApart⟩), if_neg (by simp [hkt, hkm, hkn])]
  rw [exec_effect_of_errorOf hr (errorOf_hashA s r) hnone, commandEffect_hashA]

/-- Settles O13: the word from `decode_eq_command_iff`, success and errors from `errorOf_add128`. -/
theorem add128WritesTheSum : Obligations.Add128WritesTheSum := by
  refine ⟨fun w => decode_eq_command_iff w .add128, fun s r hr =>
    ⟨fun hsrcLen hauxLen hsrc haux hdst hsrcAlias hauxAlias => ?_,
      exec_failed_of_errorOf hr (errorOf_add128 s r)⟩⟩
  have hnone := errorOf_add128_eq_none s.keys hsrcLen hauxLen hsrc haux hdst hsrcAlias hauxAlias
  rw [exec_effect_of_errorOf hr (errorOf_add128 s r) hnone, commandEffect_add128]

/-- Settles O14: the word from `decode_eq_command_iff`, success and errors as for ADD128. -/
theorem sub128WritesTheDifference : Obligations.Sub128WritesTheDifference := by
  refine ⟨fun w => decode_eq_command_iff w .sub128, fun s r hr =>
    ⟨fun hsrcLen hauxLen hsrc haux hdst hsrcAlias hauxAlias => ?_,
      exec_failed_of_errorOf hr (errorOf_sub128 s r)⟩⟩
  have hnone := errorOf_add128_eq_none s.keys hsrcLen hauxLen hsrc haux hdst hsrcAlias hauxAlias
  rw [exec_effect_of_errorOf hr (errorOf_sub128 s r) hnone, commandEffect_sub128]

end Sys2Proof.Machine
end

section
/-! PROOFS. The causes of 60_exceptions.md R85 are the checks of a command, code by code, and the first check that
fails has the lowest code (R86). -/

namespace Sys2Proof.Machine

theorem applies_badRounds_iff (i : Instr) (p : Params) (st : KeyStore) (r : Inflight) :
    Spec.applies i p st r .badRounds ↔ badRounds i r.rounds = true := by
  cases i with
  | hchacha | xstream =>
    rw [badRounds, not_legalRounds_iff]
    simp [Spec.applies]
  | _ => simp [Spec.applies, badRounds]

theorem applies_badKeyLen_iff (i : Instr) (p : Params) (st : KeyStore) (r : Inflight) :
    Spec.applies i p st r .badKeyLen ↔ badKeyLen i r.ops = true := by
  cases i <;> simp [Spec.applies, badKeyLen]

/-- BAD_LENGTH: only NH_CHUNK's cause is worded otherwise than its check. -/
theorem applies_badLength_iff (i : Instr) (p : Params) (st : KeyStore) (r : Inflight) :
    Spec.applies i p st r .badLength ↔ badLength i r.ops = true := by
  cases i with
  | nhChunk =>
    rw [badLength_nhChunk_iff]
    simp only [Spec.applies, reduceCtorEq, false_and, true_and, false_or, or_false]
    omega
  | _ => simp [Spec.applies, badLength]

theorem applies_range_iff (i : Instr) (p : Params) (st : KeyStore) (r : Inflight) :
    Spec.applies i p st r .range ↔ badRange i p r.ops = true := by
  cases i with
  | ldkey k => simp [Spec.applies, Spec.ranges, badRange_ldkey]
  | hchacha => simp [Spec.applies, Spec.ranges, badRange_hchacha_iff]
  | xstream => simp [Spec.applies, Spec.ranges, badRange_xstream_iff]
  | nhChunk => simp [Spec.applies, Spec.ranges, badRange_iff_of_src_dst (i := .nhChunk) rfl rfl]
  | nhMsg =>
    simp [Spec.applies, Spec.ranges, badRange_iff_of_src_dst (i := .nhMsg) rfl rfl, chunkCount_eq]
  | hashA => simp [Spec.applies, Spec.ranges, badRange_iff_of_src_aux_dst (i := .hashA) rfl rfl]
  | add128 => simp [Spec.applies, Spec.ranges, badRange_iff_of_src_aux_dst (i := .add128) rfl rfl]
  | sub128 => simp [Spec.applies, Spec.ranges, badRange_iff_of_src_aux_dst (i := .sub128) rfl rfl]

theorem applies_overlap_iff (i : Instr) (p : Params) (st : KeyStore) (r : Inflight) :
    Spec.applies i p st r .overlap ↔ badOverlap i r.ops = true := by
  cases i with
  | ldkey k => simp [Spec.applies, Spec.overlaps, badOverlap_ldkey]
  | hchacha => exact (badOverlap_hchacha_iff r.ops).symm
  | xstream => exact (badOverlap_xstream_iff r.ops).symm
  | nhChunk => exact (badOverlap_iff_of_src_dst rfl rfl).symm
  | nhMsg =>
    rw [badOverlap_iff_of_src_dst (i := .nhMsg) rfl rfl, chunkCount_eq]
    rfl
  | hashA => exact (badOverlap_hashA_iff r.ops).symm
  | add128 | sub128 => exact (badOverlap_add128_iff r.ops).symm

theorem applies_keyNotLoaded_iff (i : Instr) (p : Params) (st : KeyStore) (r : Inflight) :
    Spec.applies i p st r .keyNotLoaded ↔ keyMissing i st = true := by
  have hkeys : Spec.keysOf i = keysRead i := by cases i <;> rfl
  simp [Spec.applies, hkeys, keyMissing]

/-- The causes of R85 are the checks: an error applies to a command iff a check that reports it fails. -/
theorem applies_iff_mem_commandChecks (i : Instr) (s : State) (r : Inflight) (e : ErrCode) :
    Spec.applies i s.params s.keys r e ↔ (true, e) ∈ commandChecks i s r := by
  cases e with
  | none | illegalCmd => simp [Spec.applies, commandChecks]
  | badRounds => simp [applies_badRounds_iff, commandChecks]
  | badKeyLen => simp [applies_badKeyLen_iff, commandChecks]
  | badLength => simp [applies_badLength_iff, commandChecks]
  | range => simp [applies_range_iff, commandChecks]
  | overlap => simp [applies_overlap_iff, commandChecks]
  | keyNotLoaded => simp [applies_keyNotLoaded_iff, commandChecks]

/-- The checks stand in the order of the codes (60_exceptions.md R86). -/
theorem commandChecks_rising (i : Instr) (s : State) (r : Inflight) :
    (commandChecks i s r).Pairwise fun c d => c.2.code.toNat < d.2.code.toNat := by
  simp [commandChecks, ErrCode.code]

/-- Of checks that stand in the order of their codes, the one reported has the lowest code that fails. -/
theorem firstError_le {checks : List Check} {e e' : ErrCode}
    (hrising : checks.Pairwise fun c d => c.2.code.toNat < d.2.code.toNat)
    (h : firstError checks = some e) (he' : (true, e') ∈ checks) : e.code.toNat ≤ e'.code.toNat := by
  induction checks with
  | nil => cases he'
  | cons c rest ih =>
    obtain ⟨failed, code⟩ := c
    obtain ⟨hhead, hrest⟩ := List.pairwise_cons.mp hrising
    cases failed with
    | true =>
      obtain rfl : code = e := Option.some.inj h
      rcases List.mem_cons.mp he' with heq | hmem
      · cases heq
        exact Nat.le_refl _
      · exact Nat.le_of_lt (hhead _ hmem)
    | false =>
      have hmem : (true, e') ∈ rest := (List.mem_cons.mp he').resolve_left nofun
      exact ih hrest h hmem

/-- A command whose checks pass has no cause of R85. -/
theorem not_applies_of_pass {i : Instr} {s : State} {r : Inflight}
    (h : firstError (commandChecks i s r) = none) (e : ErrCode) :
    ¬Spec.applies i s.params s.keys r e := by
  rw [applies_iff_mem_commandChecks]
  exact fun hmem => nomatch firstError_none h _ hmem

/-- The error a command reports applies to it. -/
theorem applies_of_firstError {i : Instr} {s : State} {r : Inflight} {e : ErrCode}
    (h : firstError (commandChecks i s r) = some e) : Spec.applies i s.params s.keys r e := by
  obtain ⟨⟨failed, code⟩, hmem, rfl, rfl⟩ := firstError_some h
  exact (applies_iff_mem_commandChecks i s r _).mpr hmem

/-- No error before the one that a command reports applies to it. -/
theorem not_applies_of_code_lt {i : Instr} {s : State} {r : Inflight} {e e' : ErrCode}
    (h : firstError (commandChecks i s r) = some e) (hlt : e'.code.toNat < e.code.toNat) :
    ¬Spec.applies i s.params s.keys r e' := by
  rw [applies_iff_mem_commandChecks]
  exact fun hmem => Nat.not_lt.mpr (firstError_le (commandChecks_rising i s r) h hmem) hlt

end Sys2Proof.Machine
end

section
/-! PROOFS. How the engine's turn ends: with the first error that applies, which changes STATUS and OUT_LEN only,
or with a success (60_exceptions.md R84 to R88); and that an idle engine changes nothing (R98). -/

namespace Sys2Proof.Machine

theorem State.busy_of_inflight_none {s : State} (h : s.inflight = none) : s.busy = false := by
  rw [State.busy, h]
  rfl

@[simp] theorem State.settleBreach_errcode (s : State) (out : Range) :
    (s.settleBreach out).status.errcode = s.status.errcode := by
  obtain ⟨-, -, -, -, -, -, -, -, -, h, -, -⟩ := s.settleBreach_frame out
  exact h

/-- A step in which the engine moves is the engine's turn, with that turn taken off the script. -/
theorem step_of_nextTurn_engine {s : State} (h : s.nextTurn = .engine) : step s = engineTurn s.popTurn := by
  rw [step_eq, h]

/-- How a step of the engine ends, from a state whose record is known. -/
theorem step_next_of_inflight {s t : State} {r : Inflight} (hr : s.inflight = some r)
    (hturn : s.nextTurn = .engine) (h : step s = .next t) :
    (∃ i u, decode r.word = .command i ∧ exec i s.popTurn = .next u ∧ t = u.settleBreach r.outRange) ∨
      (∃ why, decode r.word = .illegal why ∧
        t = (s.popTurn.raise .illegalCmd).settleBreach r.outRange) := by
  rw [step_of_nextTurn_engine hturn] at h
  obtain ⟨hnone, -⟩ | ⟨r', hr', hcases⟩ := engineTurn_next h
  · cases hr.symm.trans hnone
  · obtain rfl : r = r' := Option.some.inj (hr.symm.trans hr')
    exact hcases

/-- A command, however it ends, leaves DONE = 1. -/
theorem exec_done {i : Instr} {s t : State} (h : exec i s = .next t) : t.status.done = true := by
  obtain ⟨r, -, ⟨e, -, -, rfl⟩ | ⟨-, rfl⟩⟩ := exec_next h
  · rfl
  · obtain ⟨-, hdone, -⟩ := commandEffect_completes i s r
    exact hdone

theorem exec_busy {i : Instr} {s t : State} (h : exec i s = .next t) : t.busy = false := by
  obtain ⟨-, -, -, -, -, -, -, -, hnone⟩ := exec_frame h
  exact State.busy_of_inflight_none hnone

/-- A command that ends with an error has raised it, and done nothing else. -/
theorem exec_eq_raise_of_errcode {i : Instr} {s t : State} (h : exec i s = .next t)
    (he : t.status.errcode ≠ .none) : ∃ e, t = s.raise e := by
  obtain ⟨r, -, ⟨e, -, -, rfl⟩ | ⟨-, rfl⟩⟩ := exec_next h
  · exact ⟨e, rfl⟩
  · obtain ⟨-, -, -, -, hnone, -⟩ := commandEffect_completes i s r
    exact absurd hnone he

/-- A command that ends with no error has had its effect. -/
theorem exec_eq_effect_of_errcode {i : Instr} {s t : State} {r : Inflight} (hr : s.inflight = some r)
    (h : exec i s = .next t) (he : t.status.errcode = .none) : t = commandEffect i s r := by
  obtain ⟨e, hne, -, rfl⟩ | ⟨-, rfl⟩ := exec_next_of_inflight hr h
  · exact absurd he hne
  · rfl

/-- ERRCODE after a command is the first cause of R85 that applies, or none when no cause does. -/
theorem exec_reports_first_cause {i : Instr} {s t : State} {r : Inflight} (hr : s.inflight = some r)
    (h : exec i s = .next t) :
    (t.status.errcode = .none ∧ ∀ e, ¬Spec.applies i s.params s.keys r e) ∨
      (Spec.applies i s.params s.keys r t.status.errcode ∧
        ∀ e : ErrCode, e.code.toNat < t.status.errcode.code.toNat →
          ¬Spec.applies i s.params s.keys r e) := by
  obtain ⟨e, -, hfirst, rfl⟩ | ⟨hpass, rfl⟩ := exec_next_of_inflight hr h
  · exact .inr ⟨applies_of_firstError hfirst, fun e' => not_applies_of_code_lt hfirst⟩
  · obtain ⟨-, -, -, -, hnone, -⟩ := commandEffect_completes i s r
    exact .inl ⟨hnone, not_applies_of_pass hpass⟩

/-- With the host duty kept, a step of the engine that ends with an error has raised it. -/
theorem step_eq_raise_of_errcode {s t : State} {r : Inflight} (hr : s.inflight = some r)
    (hbreach : s.breach = Breach.none) (hturn : s.nextTurn = .engine) (h : step s = .next t)
    (he : t.status.errcode ≠ .none) : ∃ e, t = s.popTurn.raise e := by
  obtain ⟨i, u, -, hu, rfl⟩ | ⟨-, -, rfl⟩ := step_next_of_inflight hr hturn h
  · rw [State.settleBreach_errcode] at he
    obtain ⟨e, rfl⟩ := exec_eq_raise_of_errcode hu he
    exact ⟨e, State.settleBreach_none _ hbreach⟩
  · exact ⟨.illegalCmd, State.settleBreach_none _ hbreach⟩

/-- The length of every output range fits a 32-bit register (10_state.md R29). -/
theorem outRange_len_lt (i : Instr) (o : Operands) : (outRange i o).len < 2 ^ 32 := by
  have hlen : o.srcLen.toNat < 2 ^ 32 := o.srcLen.isLt
  cases i with
  | xstream => exact hlen
  | nhMsg =>
    simp only [outRange, Operands.dstRange, chunkCount_eq]
    omega
  | _ => simp [outRange, Operands.dstRange]

/-- Settles O15: settling a breach keeps ERRCODE, so it is what the command, or the illegal word, left. -/
theorem firstErrorIsReported : Obligations.FirstErrorIsReported := by
  intro s t r hr hturn h
  obtain ⟨j, u, hj, hu, rfl⟩ | ⟨why, hwhy, rfl⟩ := step_next_of_inflight hr hturn h
  · rw [State.settleBreach_errcode]
    refine ⟨fun hrows => ?_, fun i hi => ?_⟩
    · obtain ⟨why, hwhy⟩ := exists_decode_illegal hrows
      cases hj.symm.trans hwhy
    · obtain rfl : j = i := Decoded.command.inj (hj.symm.trans hi)
      exact exec_reports_first_cause (s := s.popTurn) hr hu
  · rw [State.settleBreach_errcode]
    exact ⟨fun _ => rfl, fun i hi => nomatch hwhy.symm.trans hi⟩

/-- Settles O16: what a raised error changes is what `State.raise` writes. -/
theorem errorsChangeNothingElse : Obligations.ErrorsChangeNothingElse := by
  intro s t r hr hbreach hturn h he
  obtain ⟨e, rfl⟩ := step_eq_raise_of_errcode hr hbreach hturn h he
  exact ⟨rfl, rfl, rfl, rfl, rfl⟩

/-- Settles O17: a success is the command's effect, and OUT_LEN can hold the length of every output range. -/
theorem successSetsStatusAndLength : Obligations.SuccessSetsStatusAndLength := by
  intro i s t r hr h he
  obtain rfl := exec_eq_effect_of_errcode hr h he
  obtain ⟨-, hdone, herr, hovr, -, houtLen⟩ := commandEffect_completes i s r
  refine ⟨exec_busy h, hdone, ?_, herr, hovr⟩
  rw [houtLen, BitVec.toNat_ofNat, Nat.mod_eq_of_lt (outRange_len_lt i r.ops)]

/-- Settles O6: `exec_total`, and BUSY and DONE of whatever it answers. -/
theorem everyCommandEndsWithDone : Obligations.EveryCommandEndsWithDone := by
  rintro i s ⟨r, hr⟩
  obtain ⟨t, ht⟩ := exec_total i hr
  exact ⟨t, ht, exec_busy ht, exec_done ht⟩

/-- Settles O4: the step is the engine's turn on the word in flight, and a kept duty leaves nothing to settle. -/
theorem stepRunsTheCommandInFlight : Obligations.StepRunsTheCommandInFlight := by
  intro s r i hr hi hturn
  have hstep : step s = settle r.outRange (exec i s.popTurn) :=
    (step_of_nextTurn_engine hturn).trans (engineTurn_command (s := s.popTurn) hr hi)
  exact ⟨hstep, fun hbreach => hstep.trans (settle_exec_of_no_breach (s := s.popTurn) _ i hbreach)⟩

theorem engineTurn_idle {s : State} (h : s.busy = false) : engineTurn s = .next s := by
  have hnone : s.inflight = none := Option.not_isSome_iff_eq_none.mp (Bool.eq_false_iff.mp h)
  simp only [engineTurn, hnone]

/-- Settles O41: with no turn left the engine moves, and it is idle. -/
theorem idleBlockChangesNothing : Obligations.IdleBlockChangesNothing := by
  intro s hidle hscript
  have hstep : step s = engineTurn s := by simp only [step, takeTurn, hscript]
  exact hstep.trans (engineTurn_idle hidle)

end Sys2Proof.Machine
end

section
/-! PROOFS. Spot checks of LDKEY against its rule (40_keyload.md R53), on the checks of its code and on the second
writing of the same checks: only BAD_KEY_LEN speaks of its length, it reads no key, and it names one range.
An example is elaborated at once, while the bodies of the theorems are queued: here Lean derives the equations of these
definitions, which the queued proofs would otherwise wait for side by side, each in a thread of its own. -/

namespace Sys2Proof.Machine

example (k : KeySel) (p : Params) (st : KeyStore) (r : Inflight) :
    ¬Spec.applies (.ldkey k) p st r .badRounds ∧ ¬Spec.applies (.ldkey k) p st r .badLength := by
  simp [Spec.applies]

example (k : KeySel) (o : Operands) :
    Spec.ranges (.ldkey k) o = [(o.src.toNat, o.srcLen.toNat)] ∧ ¬Spec.overlaps (.ldkey k) o := by
  simp [Spec.ranges, Spec.overlaps]

example : ErrCode.badKeyLen.code = 3 := by simp [ErrCode.code]

example (p : Params) (st : KeyStore) (r : Inflight) (h : r.ops.srcLen = 31) :
    Spec.errorOf (.ldkey .kt) p st r = .badKeyLen := by
  simp [Spec.errorOf, KeySel.size, h]

example (o : Operands) (h : o.srcLen = 31) : badKeyLen (.ldkey .kt) o = true := by
  simp [badKeyLen, KeySel.size, h]

example (k : KeySel) (x : BitVec 5) (o : Operands) :
    badRounds (.ldkey k) x = false ∧ badLength (.ldkey k) o = false ∧ keysRead (.ldkey k) = [] := by
  simp [badRounds, badLength, keysRead]

end Sys2Proof.Machine
end

section
/-! PROOFS. The bytes of a key that is not loaded reach nothing: hiding them commutes with every step
(10_state.md R31; 70_reset_and_hazards.md R100; 93_implementation_defined.md U1). -/

namespace Sys2Proof.Machine

theorem KeyReg.hide_of_valid {n : Nat} {k : KeyReg n} (h : k.valid = true) : k.hide = k := if_pos h

theorem KeyReg.hide_of_not_valid {n : Nat} {k : KeyReg n} (h : ¬k.valid = true) : k.hide = KeyReg.reset n :=
  if_neg h

theorem KeyReg.hide_valid {n : Nat} (k : KeyReg n) : k.hide.valid = k.valid := by
  by_cases h : k.valid = true
  · rw [KeyReg.hide_of_valid h]
  · rw [KeyReg.hide_of_not_valid h, Bool.eq_false_iff.mpr h]
    rfl

/-- The key store with the bytes of every key that is not loaded hidden. -/
def KeyStore.hideUnloaded (st : KeyStore) : KeyStore :=
  { ks := st.ks.hide, kt := st.kt.hide, km := st.km.hide, kn := st.kn.hide }

theorem State.hideUnloadedKeys_eq_withKeys (s : State) :
    s.hideUnloadedKeys = s.withKeys s.keys.hideUnloaded := rfl

theorem KeyStore.get_hideUnloaded (st : KeyStore) (k : KeySel) : st.hideUnloaded.get k = (st.get k).hide := by
  cases k <;> rfl

/-- Hiding changes no valid bit. -/
theorem KeyStore.valid_hideUnloaded (st : KeyStore) (k : KeySel) : st.hideUnloaded.valid k = st.valid k := by
  rw [KeyStore.valid, KeyStore.get_hideUnloaded, KeyReg.hide_valid]
  rfl

/-- Hiding leaves a loaded key as it is. -/
theorem KeyStore.get_hideUnloaded_of_valid {st : KeyStore} {k : KeySel} (h : st.valid k = true) :
    st.hideUnloaded.get k = st.get k := by
  rw [KeyStore.get_hideUnloaded, KeyReg.hide_of_valid h]

/-- A key just loaded is valid, so hiding before the load and after it is the same. -/
theorem KeyStore.hideUnloaded_load (st : KeyStore) (k : KeySel) (v : Vector Byte k.size) :
    (st.load k v).hideUnloaded = st.hideUnloaded.load k v := by
  cases k <;> rfl

/-- The checks see of the keys only their valid bits. -/
theorem commandChecks_withKeys (i : Instr) (s : State) (st : KeyStore) (r : Inflight)
    (h : ∀ k, st.valid k = s.keys.valid k) : commandChecks i (s.withKeys st) r = commandChecks i s r := by
  have hkeys : (s.withKeys st).keys.valid = s.keys.valid := funext h
  simp only [commandChecks, keyMissing, hkeys]
  rfl

/-- The output bytes come from no other keys than those the command reads. -/
theorem outputBytes_withKeys (i : Instr) (s : State) (st : KeyStore) (r : Inflight)
    (h : ∀ k ∈ keysRead i, st.get k = s.keys.get k) :
    outputBytes i (s.withKeys st) r = outputBytes i s r := by
  cases i with
  | ldkey k | add128 | sub128 => rfl
  | hchacha | xstream =>
    have hks : st.ks = s.keys.ks := h .ks (by decide)
    simp only [outputBytes, State.withKeys, hks]
    rfl
  | nhChunk | nhMsg =>
    have hkn : st.kn = s.keys.kn := h .kn (by decide)
    simp only [outputBytes, State.withKeys, hkn]
    rfl
  | hashA =>
    have hkt : st.kt = s.keys.kt := h .kt (by decide)
    have hkm : st.km = s.keys.km := h .km (by decide)
    have hkn : st.kn = s.keys.kn := h .kn (by decide)
    simp only [outputBytes, State.withKeys, hashA, hkt, hkm, hkn]
    rfl

theorem beforeOutput_withKeys (i : Instr) (s : State) (st : KeyStore) :
    beforeOutput i (s.withKeys st) = (beforeOutput i s).withKeys st := by
  cases i <;> rfl

/-- Once the checks have passed, every key the command reads is loaded, so hiding the others commutes with
its effect. -/
theorem commandEffect_hideUnloadedKeys {i : Instr} {s : State} {r : Inflight}
    (hpass : firstError (commandChecks i s r) = none) :
    commandEffect i s.hideUnloadedKeys r = (commandEffect i s r).hideUnloadedKeys := by
  rw [State.hideUnloadedKeys_eq_withKeys, State.hideUnloadedKeys_eq_withKeys]
  by_cases hi : ∀ k, i ≠ .ldkey k
  · have hout : outputBytes i (s.withKeys s.keys.hideUnloaded) r = outputBytes i s r :=
      outputBytes_withKeys i s _ r fun k hk => KeyStore.get_hideUnloaded_of_valid (keys_loaded_of_pass hpass k hk)
    rw [commandEffect_keys i s r hi, commandEffect_storing i hi, commandEffect_storing i hi, hout,
      beforeOutput_withKeys]
    rfl
  · obtain ⟨k, rfl⟩ := not_forall_not.mp hi
    have hkeys : (commandEffect (.ldkey k) s r).keys = s.keys.load k (s.memReadVec r.ops.src.toNat k.size) := rfl
    rw [hkeys, KeyStore.hideUnloaded_load]
    rfl

/-- Every command ends alike whether the unloaded keys are hidden before it or after it. -/
theorem exec_hideUnloadedKeys (i : Instr) (s : State) :
    exec i s.hideUnloadedKeys = mapNext State.hideUnloadedKeys (exec i s) := by
  rw [exec_eq_runCommand, exec_eq_runCommand]
  cases hr : s.inflight with
  | none => simp only [runCommand, hr, State.hideUnloadedKeys, mapNext]
  | some r =>
    have hr' : s.hideUnloadedKeys.inflight = some r := hr
    have hchecks : commandChecks i s.hideUnloadedKeys r = commandChecks i s r :=
      commandChecks_withKeys i s _ r s.keys.valid_hideUnloaded
    cases he : firstError (commandChecks i s r) with
    | none =>
      rw [runCommand_effect hr he, runCommand_effect hr' (hchecks ▸ he), commandEffect_hideUnloadedKeys he]
      rfl
    | some e =>
      rw [runCommand_error hr he, runCommand_error hr' (hchecks ▸ he)]
      rfl

theorem State.settleBreach_hideUnloadedKeys (s : State) (out : Range) :
    s.hideUnloadedKeys.settleBreach out = (s.settleBreach out).hideUnloadedKeys := by
  unfold State.settleBreach; rw [apply_ite State.hideUnloadedKeys]; rfl

theorem engineTurn_hideUnloadedKeys (s : State) :
    engineTurn s.hideUnloadedKeys = mapNext State.hideUnloadedKeys (engineTurn s) :=
  engineTurn_mapNext State.hideUnloadedKeys s rfl (fun i _ => exec_hideUnloadedKeys i s) rfl
    State.settleBreach_hideUnloadedKeys

/-- A host action keeps every key, and shows valid bits only. -/
theorem hostAct_hideUnloadedKeys (act : HostAction) (s : State) :
    hostAct act s.hideUnloadedKeys = mapNext State.hideUnloadedKeys (hostAct act s) := by
  have hwith := keysHaveNoReadPath s s.keys.hideUnloaded act s.keys.valid_hideUnloaded
  refine Eq.trans hwith ?_
  cases hact : hostAct act s with
  | next t =>
    obtain ⟨hkeys, -⟩ := hostAct_keeps_keys_backend hact
    simp only [mapNext, State.hideUnloadedKeys_eq_withKeys, hkeys]
    rfl
  | fault e => rfl
  | refused e => rfl

/-- Hiding the unloaded keys commutes with every step, turn by turn. -/
theorem step_hideUnloadedKeys (s : State) :
    step s.hideUnloadedKeys = mapNext State.hideUnloadedKeys (step s) := by
  have hturn : s.hideUnloadedKeys.nextTurn = s.nextTurn := rfl
  have hpop : s.hideUnloadedKeys.popTurn = s.popTurn.hideUnloadedKeys := rfl
  rw [step_eq, step_eq, hturn, hpop]
  cases s.nextTurn with
  | host act => exact hostAct_hideUnloadedKeys act s.popTurn
  | engine => exact engineTurn_hideUnloadedKeys s.popTurn
  | reset => rfl
  | capVec level => rfl

/-- Settles O45: each state takes the step of the state in which its unloaded keys are hidden, and that state is
the same for both. -/
theorem unloadedKeyBytesAreUnobservable : Obligations.UnloadedKeyBytesAreUnobservable := by
  intro s s' h
  rw [← step_hideUnloadedKeys s, h, step_hideUnloadedKeys s']

end Sys2Proof.Machine
end

section
/-! PROOFS. The reset: its values, that the reset input gives them from any state, and that the invariant holds
then (70_reset_and_hazards.md R99 to R101; logs 6 and 17). -/

namespace Sys2Proof.Machine

theorem KeyStore.reset_valid (k : KeySel) : KeyStore.reset.valid k = false := by cases k <;> rfl

/-- Nothing of STATUS survives a reset. -/
theorem State.resetInput_statusWord (s : State) : s.resetInput.statusWord = 0 := by
  have hreset : State.reset.statusWord = 0 := by decide
  exact hreset

theorem State.resetInput_cfgWord (s : State) : s.resetInput.cfgWord = 0 := by
  have hreset : State.reset.cfgWord = 0 := by decide
  exact hreset

/-- Every register but ID and CAPS reads 0 after a reset. -/
theorem State.resetInput_readRegister (s : State) {off : Nat} (hid : off ≠ 0x00) (hcaps : off ≠ 0x24) :
    s.resetInput.readRegister off = 0 := by
  unfold State.readRegister
  split
  case h_1 => exact absurd rfl hid
  case h_2 => exact s.resetInput_cfgWord
  case h_3 => exact s.resetInput_statusWord
  case h_10 => exact absurd rfl hcaps
  all_goals rfl

/-- Settles O33. -/
theorem resetLeavesTheStatedValues : Obligations.ResetLeavesTheStatedValues :=
  ⟨rfl, rfl, rfl, rfl, rfl, rfl, rfl, KeyStore.reset_valid, rfl, rfl, rfl, rfl, rfl, rfl, rfl,
    State.reset.resetInput_statusWord⟩

/-- Settles O34: the step is the reset input, and BUF lists nothing after it. -/
theorem resetInputFromAnyState : Obligations.ResetInputFromAnyState := by
  intro s rest hturn
  have hstep : step s = .next { s with script := rest }.resetInput := by simp only [step, takeTurn, hturn]
  exact ⟨_, hstep, rfl, rfl, rfl, KeyStore.reset_valid, State.resetInput_statusWord _,
    fun _ => State.resetInput_readRegister _, rfl, fun _ => rfl, rfl, rfl, rfl, rfl, rfl, rfl⟩

/-- Settles O35: the state right after reset differs from what the reset input makes of it only in the era of BUF, of
which the invariant says nothing. -/
theorem resetSatisfiesTheInvariant : Obligations.ResetSatisfiesTheInvariant :=
  { State.reset.resetInput_inv with }

end Sys2Proof.Machine
end

section
/-! PROOFS. A host write to CMD, idle and busy, and to STATUS while busy (10_state.md R27, R28, R33;
70_reset_and_hazards.md R103 to R105; log 10). -/

namespace Sys2Proof.Machine

theorem State.writeCmd_idle {s : State} (w : Word) (h : s.busy = false) : s.writeCmd w = s.issue w :=
  if_neg (Bool.eq_false_iff.mp h)

theorem State.writeCmd_busy {s : State} (w : Word) (h : s.busy = true) : s.writeCmd w = s.setOvr := if_pos h

theorem State.writeStatus_busy {s : State} (v : Word) (h : s.busy = true) :
    s.writeStatus v =
      { s with
        status := s.status.freed s.draws
        breach := { s.breach with status := true }
        draws := s.draws + 1 } := if_pos h

/-- `cmd w` is one step, the write of CMD. -/
theorem step_cmd {s : State} {w : Word} {rest : List Turn} (h : s.script = Asm.cmd s.params w :: rest) :
    step s = .next ({ s with script := rest }.writeCmd w) := step_wr h

/-- Settles O20: the write issues the word. -/
theorem cmdWriteTakesTheSnapshot : Obligations.CmdWriteTakesTheSnapshot := by
  intro s w rest hidle hturn
  rw [step_cmd hturn, State.writeCmd_idle (s := { s with script := rest }) w hidle]
  exact ⟨_, rfl, rfl, rfl, rfl⟩

/-- Settles O21: the write sets OVR. -/
theorem cmdWriteWhileBusySetsOnlyOvr : Obligations.CmdWriteWhileBusySetsOnlyOvr := by
  intro s w rest hbusy hturn
  rw [step_cmd hturn, State.writeCmd_busy (s := { s with script := rest }) w hbusy]
  rfl

/-- STATUS without DONE, ERR and OVR shows BUSY, ERRCODE, BACKEND and KEYVALID only. -/
theorem State.statusWord_masked_congr {s t : State} (hbusy : t.busy = s.busy) (hkeys : t.keys = s.keys)
    (herrcode : t.status.errcode = s.status.errcode) (hbackend : t.status.backend = s.status.backend) :
    t.statusWord &&& 0xFFFFFFF1 = s.statusWord &&& 0xFFFFFFF1 := by
  refine BitVec.eq_of_getLsbD_eq fun i hi => ?_
  have hmask : ∀ j < 4, 1 ≤ j → (0xFFFFFFF1 : Word).getLsbD j = false := by decide
  rw [BitVec.getLsbD_and, BitVec.getLsbD_and]
  by_cases hflag : i < 4 ∧ 1 ≤ i
  · rw [hmask i hflag.1 hflag.2, Bool.and_false, Bool.and_false]
  · rw [State.statusWord_getLsbD s, State.statusWord_getLsbD t, hbusy, hkeys, herrcode, hbackend]
    by_cases h1 : i < 1
    · rw [if_pos h1, if_pos h1]
    · obtain ⟨h2, h3, h4⟩ : ¬i < 2 ∧ ¬i < 3 ∧ ¬i < 4 := by omega
      rw [if_neg h2, if_neg h2, if_neg h3, if_neg h3, if_neg h4, if_neg h4]

/-- Settles O58: the write frees the three flags, and the masked word shows none of them. -/
theorem statusWriteWhileBusyTouchesThreeFlags : Obligations.StatusWriteWhileBusyTouchesThreeFlags := by
  intro s v rest hbusy hturn
  have hstep : step s = .next ({ s with script := rest }.writeStatus v) := step_wr hturn
  rw [hstep, State.writeStatus_busy (s := { s with script := rest }) v hbusy]
  exact ⟨_, rfl, rfl, State.statusWord_masked_congr rfl rfl rfl rfl⟩

end Sys2Proof.Machine
end

section
/-! PROOFS. A command in flight is completed after finitely many turns (70_reset_and_hazards.md R106; log 1). -/

namespace Sys2Proof.Machine

/-- No register write changes the parameters or the turns that wait. -/
theorem writeRegister_keeps_params_script (s : State) (off : Nat) (v : Word) :
    (s.writeRegister off v).params = s.params ∧ (s.writeRegister off v).script = s.script := by
  obtain h | ⟨-, h⟩ | ⟨-, h⟩ | ⟨o, h⟩ := writeRegister_cases s off v <;> rw [h]
  · exact ⟨rfl, rfl⟩
  · unfold State.writeStatus; split <;> exact ⟨rfl, rfl⟩
  · unfold State.writeCmd; split <;> exact ⟨rfl, rfl⟩
  · exact ⟨rfl, rfl⟩

theorem hostAct_keeps_params_script {act : HostAction} {s t : State} (h : hostAct act s = .next t) :
    t.params = s.params ∧ t.script = s.script := by
  obtain ⟨-, ⟨_, _, v, -, rfl⟩ | ⟨-, -, -, rfl⟩ | ⟨a, b, -, rfl⟩ | ⟨a, -, rfl⟩⟩ := hostAct_next h
  · exact writeRegister_keeps_params_script s _ v
  · exact ⟨rfl, rfl⟩
  · unfold State.hostBufWrite; split <;> exact ⟨rfl, rfl⟩
  · unfold State.hostBufRead; split <;> exact ⟨rfl, rfl⟩

/-- A step takes one turn off the script, and no step changes the parameters. -/
theorem step_params_script {s t : State} (h : step s = .next t) :
    t.params = s.params ∧ t.script = s.script.tail := by
  obtain ⟨-, h⟩ | ⟨act, -, h⟩ | ⟨-, rfl⟩ | ⟨level, -, rfl⟩ := step_next h
  · obtain ⟨-, -, hparams, hscript⟩ := engineTurn_frame h
    exact ⟨hparams, hscript⟩
  · exact hostAct_keeps_params_script h
  · exact ⟨rfl, rfl⟩
  · exact ⟨rfl, rfl⟩

/-- A well-formed script never stops the machine. -/
theorem step_total_of_wellFormed {s : State} (h : ∀ turn ∈ s.script, turn.wellFormed s.params = true) :
    ∃ t, step s = .next t := by
  refine (stepStopsExactlyOnIllFormedTurns s).mpr ?_
  unfold State.nextTurn
  split
  · rfl
  · next turn rest hscript => exact h turn (hscript ▸ List.mem_cons_self)

/-- Settles O39, by induction on the turns that wait: when none is left, the engine moves. -/
theorem commandInFlightIsCompletedEventually : Obligations.CommandInFlightIsCompletedEventually := by
  intro s hbusy hwf
  obtain ⟨t, ht⟩ := step_total_of_wellFormed hwf
  induction hscript : s.script generalizing s t with
  | nil =>
    have hturn : s.nextTurn = .engine := by rw [State.nextTurn, hscript]
    exact ⟨1, t, core_run_succ ht 0, engineTurn_busy ((step_of_nextTurn_engine hturn).symm.trans ht)⟩
  | cons turn rest ih =>
    cases hidle : t.busy with
    | false => exact ⟨1, t, core_run_succ ht 0, hidle⟩
    | true =>
      obtain ⟨hparams, htail⟩ := step_params_script ht
      rw [hscript] at hwf htail
      have hwf' : ∀ turn' ∈ t.script, turn'.wellFormed t.params = true := by
        rw [htail, hparams]
        exact (List.forall_mem_cons.mp hwf).2
      obtain ⟨u, hu⟩ := step_total_of_wellFormed hwf'
      obtain ⟨k, v, hrun, hdone⟩ := ih t hidle hwf' u hu htail
      exact ⟨k + 1, v, (core_run_succ ht k).trans hrun, hdone⟩

end Sys2Proof.Machine
end

section
/-! PROOFS. What a host that breaks its duty while BUSY = 1 makes unspecified: what it reads of BUF meanwhile, and
what the completion leaves in BUF and in DONE, ERR and OVR (70_reset_and_hazards.md R105; logs 9 to 11). -/

namespace Sys2Proof.Machine

/-- An address lies in the output range of the record exactly when its word is a command whose output range has
it. -/
theorem Inflight.outRange_holds_iff (r : Inflight) (a : Nat) :
    r.outRange.holds a = true ↔ ∃ i, decode r.word = .command i ∧ (Machine.outRange i r.ops).holds a = true := by
  cases hw : decode r.word with
  | command i =>
    rw [Inflight.outRange_command hw]
    exact ⟨fun h => ⟨i, rfl, h⟩, fun ⟨j, hj, h⟩ => Decoded.command.inj hj ▸ h⟩
  | illegal why =>
    rw [Inflight.outRange_illegal hw]
    exact ⟨fun h => absurd h (by simp [Range.holds]), fun ⟨_, hj, _⟩ => nomatch hj⟩

/-- The bytes the host may not rely on while a record is in flight. -/
theorem State.uncertain_iff {s : State} {r : Inflight} (hr : s.inflight = some r) (a : Nat) :
    s.uncertain a = true ↔
      (∃ i, decode r.word = .command i ∧ (outRange i r.ops).holds a = true) ∨ a ∈ s.breach.touched := by
  simp only [State.uncertain, hr, Bool.or_eq_true, Inflight.outRange_holds_iff, List.contains_iff_mem]

theorem State.hostBufRead_uncertain {s : State} {a : Nat} (h : s.uncertain a = true) :
    s.hostBufRead a =
      { s with rdata := (Config.breachByte s.draws a).setWidth 32, draws := s.draws + 1 } := if_pos h

theorem State.hostBufRead_certain {s : State} {a : Nat} (h : ¬s.uncertain a = true) :
    s.hostBufRead a = { s with rdata := (s.buf.read a).setWidth 32 } := if_neg h

/-- Settles O60: the two clauses are the two answers of `hostBufRead`. -/
theorem bufReadWhileBusyIsFree : Obligations.BufReadWhileBusyIsFree := by
  intro s r a rest hr ha hturn
  have huncertain := State.uncertain_iff (s := { s with script := rest }) hr a
  rw [step_bufRead ha hturn]
  refine ⟨fun h => ?_, fun hout htouched => ?_⟩
  · rw [State.hostBufRead_uncertain (huncertain.mpr h)]
  · rw [State.hostBufRead_certain fun h => ?_]
    obtain ⟨i, hi, hholds⟩ | htouched' := huncertain.mp h
    · exact absurd hholds (Bool.eq_false_iff.mp (hout i hi))
    · exact htouched htouched'

/-- What a BUF write while BUSY = 1 leaves unspecified: the output range as far as BUF goes, and the written
bytes. -/
theorem Breach.mem_unspecified_iff {b : Breach} (h : b.touched ≠ []) (p : Params) (out : Range) (a : Nat) :
    a ∈ b.unspecified p out ↔ (out.holds a = true ∧ a < p.bufSize) ∨ a ∈ b.touched := by
  have hne : ¬b.touched.isEmpty = true := fun he => h (List.isEmpty_iff.mp he)
  rw [Breach.unspecified, if_neg hne, List.mem_append, Range.mem_addressesIn]

theorem Breach.ne_none_of_touched {b : Breach} (h : b.touched ≠ []) : b ≠ Breach.none := by
  rintro rfl
  exact h rfl

theorem Breach.ne_none_of_status {b : Breach} (h : b.status = true) : b ≠ Breach.none := by
  rintro rfl
  cases h

/-- A byte of BUF after a settled BUF write. -/
theorem State.settleBreach_read {s : State} (hwf : s.buf.wf) (h : s.breach.touched ≠ []) (out : Range) (a : Nat) :
    (s.settleBreach out).buf.read a =
      if (out.holds a = true ∧ a < s.params.bufSize) ∨ a ∈ s.breach.touched then Config.breachByte s.draws a
      else s.buf.read a := by
  rw [State.settleBreach_open out (Breach.ne_none_of_touched h), Buf.read_free _ _ _ _ hwf]
  simp only [Breach.mem_unspecified_iff h]

/-- No command takes BUF out of its canonical form. -/
theorem exec_keeps_buf_wf {i : Instr} {s u : State} (h : exec i s = .next u) (hwf : s.buf.wf) : u.buf.wf := by
  obtain ⟨r, -, ⟨e, -, -, rfl⟩ | ⟨-, rfl⟩⟩ := exec_next h
  · exact hwf
  · rw [commandEffect_buf]
    exact Buf.writeBytes_wf _ _ _ hwf

/-- Settles O56: what the completion frees is told by `settleBreach_read`; an illegal word has no output
range. -/
theorem bufWriteWhileBusyFreesTheOutput : Obligations.BufWriteWhileBusyFreesTheOutput := by
  intro s t r hwf hr htouched hturn h
  rw [step_of_nextTurn_engine hturn] at h
  refine ⟨fun i u hi hu a ha => ?_, fun why hw a => ?_⟩
  · rw [engineTurn_command (s := s.popTurn) hr hi, hu] at h
    cases h
    obtain ⟨-, -, hparams, -, -, -, hbreach, hdraws, -⟩ := exec_frame hu
    have htouched' : u.breach.touched ≠ [] := by rw [hbreach]; exact htouched
    rw [State.settleBreach_read (exec_keeps_buf_wf hu hwf) htouched', Inflight.outRange_command hi, hparams,
      hbreach, hdraws]
    simp only [State.popTurn, ha, and_true]
  · rw [engineTurn_illegal (s := s.popTurn) hr hw] at h
    cases h
    rw [State.settleBreach_read (s := s.popTurn.raise .illegalCmd) hwf htouched, Inflight.outRange_illegal hw]
    simp [Range.holds, State.popTurn]

/-- What settling a STATUS write while BUSY = 1 leaves: the three flags at free values, and BUF as it was when
the host wrote no byte of it. -/
theorem State.settleBreach_status {u : State} (out : Range) (h : u.breach.status = true) :
    u.settleBreach out =
        { u with
          status := u.status.freed u.draws
          buf := (u.settleBreach out).buf
          breach := Breach.none
          draws := u.draws + 1 } ∧
      (u.breach.touched = [] → (u.settleBreach out).buf = u.buf) := by
  rw [State.settleBreach_open out (Breach.ne_none_of_status h), if_pos h]
  refine ⟨rfl, fun hnone => ?_⟩
  simp only [Breach.unspecified_untouched u.params out hnone, Buf.free]

/-- Settles O59: a command, and ILLEGAL_CMD, leave the breach and the count of draws for `settleBreach`. -/
theorem statusWriteWhileBusyFreesTheFlags : Obligations.StatusWriteWhileBusyFreesTheFlags := by
  intro s t u r hr hstatus hturn h hend
  rw [step_of_nextTurn_engine hturn] at h
  obtain ⟨hbreach, hdraws, rfl⟩ :
      u.breach = s.breach ∧ u.draws = s.draws ∧ t = u.settleBreach r.outRange := by
    obtain ⟨i, hi, hu⟩ | ⟨⟨why, hw⟩, rfl⟩ := hend
    · rw [engineTurn_command (s := s.popTurn) hr hi, hu] at h
      cases h
      obtain ⟨-, -, -, -, -, -, hbreach, hdraws, -⟩ := exec_frame hu
      exact ⟨hbreach, hdraws, rfl⟩
    · rw [engineTurn_illegal (s := s.popTurn) hr hw] at h
      cases h
      exact ⟨rfl, rfl, rfl⟩
  rw [← hbreach, ← hdraws]
  exact State.settleBreach_status r.outRange (hbreach ▸ hstatus)

end Sys2Proof.Machine
end
